-- ==== Sys2Proof/Word.lean ====
section
/-! DEFINITION. The words of the XR2000 Frame Parser: the byte is the only storage unit
(spec/20_memory.md R32), and every wire item is a sequence of bytes (spec/00_scope.md R11). -/

namespace Sys2Proof

/-- A byte: an 8-bit unsigned value (R11, R14, R32). Bit 0 is the least significant bit (R10). -/
abbrev Byte := BitVec 8

/-- A byte sequence: a finite list whose element 0 is the first byte in stream order (R11). -/
abbrev Bytes := List Byte

end Sys2Proof
end

