-- ==== Sys2Proof/Syntax.lean ====
section
/-! DEFINITION. What the block is given and what it hands back, as data: the rows of
spec/opcode_table.json (`Instr`), the command transaction of the port `cmd` (spec/30_encoding.md R63, R65),
packets (spec/00_scope.md R14), the length-field widths and the packet type names. -/

namespace Sys2Proof

/-- A packet (R14): a 5-bit type, an optional 8-bit request id, a payload. That the payload has at most
2^32 - 1 bytes is `Packet.wf`. -/
structure Packet where
  type : BitVec 5
  rid : Option Byte
  payload : Bytes
deriving DecidableEq, Repr

/-- The width LF of a length field. The spec has no other width: 3 cannot be expressed (R51, U2). -/
inductive LF where
  | w0
  | w1
  | w2
  | w4
deriving DecidableEq, Repr

/-- The names of the packet types (R15), in the source's order. The order gives no code (N3): the codes are
the open parameter `TYPE_CODE` (R9), which the block never reads. -/
inductive PacketType where
  | help | hello | documentation | register | registered | login | getStatus | status
  | getMail | mail | sendMail | configure | route | translate | translation | result
deriving DecidableEq, Repr

/-- The rows of spec/opcode_table.json, one constructor each: the five commands of the port `cmd` with their
operand fields (R64, R65) and the eight header forms the parser decodes, each with its free field TYPE (R62). -/
inductive Instr where
  /-- PUSH, command word 0x01 (R95). -/
  | push (chunk : Bytes)
  /-- TAKE, command word 0x02 (R98). -/
  | take
  /-- ENCODE, command word 0x03 (R77); the operand `type` is 8 bits wide (R65). -/
  | encode (type : Byte) (rid : Option Byte) (payload : Bytes)
  /-- QUERY, command word 0x04 (R102). -/
  | query
  /-- CLEAR, command word 0x07 (R104). -/
  | clear
  /-- HDR_L0, header byte 000ttttt: no length field, no request id (R62). -/
  | hdrL0 (type : BitVec 5)
  /-- HDR_L0R, header byte 001ttttt: no length field, a request id. -/
  | hdrL0R (type : BitVec 5)
  /-- HDR_L1, header byte 010ttttt: one length byte, no request id. -/
  | hdrL1 (type : BitVec 5)
  /-- HDR_L1R, header byte 011ttttt: one length byte, a request id. -/
  | hdrL1R (type : BitVec 5)
  /-- HDR_L2, header byte 100ttttt: two length bytes, no request id. -/
  | hdrL2 (type : BitVec 5)
  /-- HDR_L2R, header byte 101ttttt: two length bytes, a request id. -/
  | hdrL2R (type : BitVec 5)
  /-- HDR_L4, header byte 110ttttt: four length bytes, no request id. -/
  | hdrL4 (type : BitVec 5)
  /-- HDR_L4R, header byte 111ttttt: four length bytes, a request id. -/
  | hdrL4R (type : BitVec 5)
deriving DecidableEq, Repr

/-- One transaction on the port `cmd` (R26, R63, R65): the 8-bit command word and the operand fields, which
travel beside the word and are not serialized into it. -/
structure Transaction where
  word : Byte
  chunk : Bytes
  type : Byte
  rid : Option Byte
  payload : Bytes
deriving DecidableEq, Repr

/-- The transaction of a bare command word: every operand field empty, absent or zero. -/
def Transaction.ofWord (w : Byte) : Transaction :=
  { word := w, chunk := [], type := 0, rid := none, payload := [] }

/-- An encoded instruction: a transaction on the port `cmd` (format CMD, R63) or a header byte at the head of
the queue (format HDR, R50). -/
inductive Encoded where
  | command (t : Transaction)
  | header (h : Byte)
deriving DecidableEq, Repr

/-- Why the decoder gives no instruction. -/
inductive DecodeError where
  /-- A reserved command word (R66): the block answers it with ILLEGAL (R103). -/
  | reserved (word : Byte)
deriving DecidableEq, Repr

end Sys2Proof
end

