-- ==== Sys2Proof/Decode.lean ====
section
/-! DEFINITION. The two encodings of spec/30_encoding.md, read and written: the command word of the port `cmd`
(R63, R64) and the header byte of a frame (R50, R62), with the constants and the byte-order helpers they use.
Each literal of the source stands here once, under its own name (decision D25). -/

namespace Sys2Proof

/-! ## Literals of the source (R7, R50, R51) -/

/-- `MAGIC` (R7), in wire order (R35). -/
def magic : Bytes := [0x58, 0x52, 0x32, 0x4B]

/-- R50: `LFL` is `H[7:6]`. -/
abbrev lflLow : Nat := 6

/-- R50: `F` is `H[5]`. -/
abbrev flagBit : Nat := 5

/-- R50: `TYPE` is `H[4:0]`. -/
abbrev typeLow : Nat := 0

/-- The number of bytes of a length field of width LF (R8). -/
def LF.bytes : LF → Nat
  | .w0 => 0
  | .w1 => 1
  | .w2 => 2
  | .w4 => 4

/-- `LF_of_LFL` (R51, R82). -/
def lfOfLfl (lfl : BitVec 2) : LF :=
  if lfl = 0 then .w0 else if lfl = 1 then .w1 else if lfl = 2 then .w2 else .w4

/-- `LFL_of_LF` (R52). -/
def lflOfLf : LF → BitVec 2
  | .w0 => 0
  | .w1 => 1
  | .w2 => 2
  | .w4 => 3

/-! ## Little-endian byte sequences (R12) -/

/-- `LE(n, k)`: the `k`-byte little-endian spelling of `n`, least significant byte first (R12, log 6). -/
def bytesLE (n : Nat) : Nat → Bytes
  | 0 => []
  | k + 1 => BitVec.ofNat 8 n :: bytesLE (n / 256) k

/-- `fromLE(b)`: the sum of `b[i] * 2^(8*i)` (R12). -/
def fromLE : Bytes → Nat
  | [] => 0
  | b :: bs => b.toNat + 256 * fromLE bs

/-! ## The header byte (R50, R74, R79) -/

/-- `HdrFields(H) = (lfl, f, t)` (R79). -/
def hdrFields (h : Byte) : BitVec 2 × Bool × BitVec 5 :=
  (h.extractLsb' lflLow 2, h.getLsbD flagBit, h.extractLsb' typeLow 5)

/-- `HdrByte(lfl, f, t5)` (R74). -/
def hdrByte (lfl : BitVec 2) (f : Bool) (t5 : BitVec 5) : Byte :=
  (lfl.setWidth 8 <<< lflLow) ||| ((BitVec.ofBool f).setWidth 8 <<< flagBit) ||| (t5.setWidth 8 <<< typeLow)

/-- The header form fixed by LF and F (R62), with its free field TYPE. -/
def headerForm : LF → Bool → BitVec 5 → Instr
  | .w0, false, t => .hdrL0 t
  | .w0, true, t => .hdrL0R t
  | .w1, false, t => .hdrL1 t
  | .w1, true, t => .hdrL1R t
  | .w2, false, t => .hdrL2 t
  | .w2, true, t => .hdrL2R t
  | .w4, false, t => .hdrL4 t
  | .w4, true, t => .hdrL4R t

/-- The header form of a header byte. All 256 values are legal (R57). -/
def decodeHeader (h : Byte) : Instr :=
  headerForm (lfOfLfl (hdrFields h).1) (hdrFields h).2.1 (hdrFields h).2.2

/-! ## The command word (R63, R64) -/

/-- `cmd[2:0]`, the operation code. -/
def cmdOp (w : Byte) : BitVec 3 := w.extractLsb' 0 3

/-- `cmd[7:3]`, reserved, must be 0. -/
def cmdRsv (w : Byte) : BitVec 5 := w.extractLsb' 3 5

abbrev opPush : BitVec 3 := 1
abbrev opTake : BitVec 3 := 2
abbrev opEncode : BitVec 3 := 3
abbrev opQuery : BitVec 3 := 4
abbrev opClear : BitVec 3 := 7

/-- The command word of an operation code: reserved bits clear. -/
def cmdWord (op : BitVec 3) : Byte := op.setWidth 8

/-- The command a transaction carries, or the refusal of a reserved command word (R64, R66). Operand fields the
command does not have are not looked at (log 20). -/
def decodeCommand (t : Transaction) : Except DecodeError Instr :=
  if cmdRsv t.word ≠ 0 then .error (.reserved t.word)
  else if cmdOp t.word = opPush then .ok (.push t.chunk)
  else if cmdOp t.word = opTake then .ok .take
  else if cmdOp t.word = opEncode then .ok (.encode t.type t.rid t.payload)
  else if cmdOp t.word = opQuery then .ok .query
  else if cmdOp t.word = opClear then .ok .clear
  else .error (.reserved t.word)

/-- The instruction an encoded instruction stands for: total, rejecting a reserved command word by name. -/
def decode : Encoded → Except DecodeError Instr
  | .command t => decodeCommand t
  | .header h => .ok (decodeHeader h)

/-! ## The encoder -/

/-- The encoding of an instruction: the command word of R64 with its operand fields (R65), or the header byte of
the form (R62). -/
def encode : Instr → Encoded
  | .push chunk => .command { Transaction.ofWord (cmdWord opPush) with chunk := chunk }
  | .take => .command (Transaction.ofWord (cmdWord opTake))
  | .encode type rid payload =>
    .command { Transaction.ofWord (cmdWord opEncode) with type := type, rid := rid, payload := payload }
  | .query => .command (Transaction.ofWord (cmdWord opQuery))
  | .clear => .command (Transaction.ofWord (cmdWord opClear))
  | .hdrL0 t => .header (hdrByte 0 false t)
  | .hdrL0R t => .header (hdrByte 0 true t)
  | .hdrL1 t => .header (hdrByte 1 false t)
  | .hdrL1R t => .header (hdrByte 1 true t)
  | .hdrL2 t => .header (hdrByte 2 false t)
  | .hdrL2R t => .header (hdrByte 2 true t)
  | .hdrL4 t => .header (hdrByte 3 false t)
  | .hdrL4R t => .header (hdrByte 3 true t)

/-- The 8-bit word of an encoded instruction, as the opcode table's column "encoding" has it. -/
def Encoded.byte : Encoded → Byte
  | .command t => t.word
  | .header h => h

/-! ## The opcode table's words -/

/-- The encoded instruction whose first byte is `b`, read without knowing where it stands: a command word of the
table is a command with empty operand fields, and every other byte is a header byte. The bytes 01, 02, 03, 04
and 07 are rows of both formats; here the command wins (log 4). -/
def encodedOfByte (b : Byte) : Encoded :=
  match decodeCommand (Transaction.ofWord b) with
  | .ok _ => .command (Transaction.ofWord b)
  | .error _ => .header b

/-- The first instruction of a sequence of bytes (both formats are one byte long, R50, R63). -/
def decodeBytes : Bytes → Option Instr
  | [] => none
  | b :: _ => (decode (encodedOfByte b)).toOption

/-- The instruction read from the table's bits `w`, bit 0 the least significant bit of the first byte. -/
def decodeTableWord (nbits w : Nat) : Option Instr := decodeBytes (bytesLE w ((nbits + 7) / 8))

end Sys2Proof
end

