-- ==== Sys2Proof/Config.lean ====
section
/-! DEFINITION. What an implementation of the block fixes: the capacity of its byte queue
(spec/00_scope.md R6, decision D6). Nothing here changes while the block runs. -/

namespace Sys2Proof

/-- `BUF_DEPTH` of R6: the capacity of the byte queue, a number of bytes or `INF` (unbounded). -/
inductive Depth where
  /-- `INF`: the queue is unbounded, as in the source. -/
  | inf
  /-- A queue of `n` bytes. -/
  | finite (n : Nat)
deriving DecidableEq, Repr

namespace Config

/-- The OPEN choice behind `BUF_DEPTH` (R6, D6): `none` for `INF`, `some k` for a queue of `10 + k` bytes.
It has no body: no proof can see which it is, so what is proved of `State.reset` holds for every value
that R6 admits (log 3). -/
opaque bufDepthAbove10 : Option Nat

/-- `BUF_DEPTH` of this implementation. R6: "either a natural number with `BUF_DEPTH >= 10` or the value
`INF`", and exactly those values are the ones this definition can take. -/
def bufDepth : Depth :=
  match bufDepthAbove10 with
  | none => .inf
  | some k => .finite (10 + k)

end Config
end Sys2Proof
end

