-- ==== Sys2Proof/Machine/State.lean ====
section
/-! DEFINITION. The state of the block: the three elements of spec/10_state.md R16, the implementation's
`BUF_DEPTH`, and what stands at the block's ports (R26). Plain data throughout. -/

namespace Sys2Proof.Machine

/-- A response on the port `rsp` (spec/10_state.md R27): one constructor for each status with the fields that
status carries. A field its status does not carry does not exist (U6). -/
inductive Response where
  /-- `OK{}`: ENCODE and CLEAR. -/
  | ok
  /-- `OK{accepted}`: PUSH. -/
  | okAccepted (accepted : Nat)
  /-- `OK{packet, consumed}`: TAKE. -/
  | okPacket (packet : Packet) (consumed : Nat)
  /-- `OK{fatal, cause, level}`: QUERY. -/
  | okView (fatal : Bool) (cause : Byte) (level : Nat)
  /-- `SHORT{}`: TAKE, fewer than 5 bytes (R108). -/
  | short
  /-- `INCOMPLETE{}`: TAKE, header or payload not all buffered (R109). -/
  | incomplete
  /-- `BAD_MAGIC{}`: TAKE (R110). -/
  | badMagic
  /-- `OVERSIZE{}`: TAKE (R111). -/
  | oversize
  /-- `ENCODE_ERROR{}`: ENCODE (R112). -/
  | encodeError
  /-- `ILLEGAL{}`: a reserved command word (R103). -/
  | illegal
deriving DecidableEq, Repr

/-- What arrives at the inputs `cmd` and `rst` (R26), one entry for each moment at which something arrives. -/
inductive Arrival where
  /-- A command transaction. -/
  | command (t : Transaction)
  /-- A reset on the input `rst`. -/
  | reset
  /-- A command and a reset together: the command completes first and the reset follows it (R126). -/
  | commandWithReset (t : Transaction)
deriving DecidableEq, Repr

/-- The block. `buf`, `fatal` and `cause` are its whole architectural state (R16); `depth` is the implementation
parameter `BUF_DEPTH` (R6), which nothing writes; `port`, `rsp` and `tx` are its ports (R26) and are the model's own
fields (log 1, log 2). -/
structure State where
  /-- The byte queue, oldest byte first (R17). -/
  buf : Bytes
  /-- The sticky fault flag (R18). -/
  fatal : Bool
  /-- Why `fatal` was set: 0x00, 0x03 or 0x04 (R19). -/
  cause : Byte
  /-- `BUF_DEPTH` (R6). -/
  depth : Depth
  /-- Inputs not yet accepted, oldest first. -/
  port : List Arrival
  /-- The response the last step drove, none where it drove none (R27). -/
  rsp : Option Response
  /-- The bytes the last step put on the transmit port (R13, R26). -/
  tx : Bytes
deriving DecidableEq, Repr

/-- Why the block stops: never. Every exceptional outcome is a status of a response (60_exceptions.md), and
every command completes in one step (R124), so there is no fault to name. -/
inductive Fault where
deriving DecidableEq, Repr

/-- Why an instruction has no meaning. -/
inductive Refusal where
  /-- Raised by an arm of `exec` whose instruction has no meaning yet; no arm raises it. Safe: the model says
  nothing of an instruction it refuses. -/
  | notModelled (mnemonic : String)
deriving DecidableEq, Repr

/-- The state right after reset of a block whose `BUF_DEPTH` is `d` (R30, R125), with nothing at its inputs
(log 1) and nothing driven on its outputs (R126, log 2). -/
def State.resetAt (d : Depth) : State :=
  { buf := [], fatal := false, cause := 0x00, depth := d, port := [], rsp := none, tx := [] }

/-- The state right after reset, for this implementation's `BUF_DEPTH` (log 3). -/
def State.reset : State := State.resetAt Config.bufDepth

end Sys2Proof.Machine
end

