-- ==== Sys2Proof/Machine/Flags.lean ====
section
/-! DEFINITION. The block's one flag and its codes (spec/60_exceptions.md R107, spec/10_state.md R18, R19, R24): the
status code of every response, the cause codes, the status the sticky flag makes TAKE report, and QUERY's view. -/

namespace Sys2Proof.Machine

/-! ## Codes (R107, decision D5) -/

abbrev codeOk : Byte := 0x00
abbrev codeShort : Byte := 0x01
abbrev codeIncomplete : Byte := 0x02
abbrev codeBadMagic : Byte := 0x03
abbrev codeOversize : Byte := 0x04
abbrev codeEncodeError : Byte := 0x05
abbrev codeIllegal : Byte := 0x06

/-- `cause` NONE (R19). -/
abbrev causeNone : Byte := 0x00

/-- The status code of a response (R107). -/
def Response.status : Response → Byte
  | .ok => codeOk
  | .okAccepted _ => codeOk
  | .okPacket _ _ => codeOk
  | .okView _ _ _ => codeOk
  | .short => codeShort
  | .incomplete => codeIncomplete
  | .badMagic => codeBadMagic
  | .oversize => codeOversize
  | .encodeError => codeEncodeError
  | .illegal => codeIllegal

/-- The two conditions that enter the fatal state (R107, class fatal). -/
inductive FatalCondition where
  | badMagic
  | oversize
deriving DecidableEq, Repr

/-- What `cause` records for a fatal condition (R19). -/
def FatalCondition.code : FatalCondition → Byte
  | .badMagic => codeBadMagic
  | .oversize => codeOversize

/-- The response that reports a fatal condition (R110, R111). -/
def FatalCondition.response : FatalCondition → Response
  | .badMagic => .badMagic
  | .oversize => .oversize

/-- The status TAKE reports while `fatal = 1`: "(st.cause = 0x03) ? BAD_MAGIC : OVERSIZE" (R98). For a
`cause` no step writes, this is OVERSIZE, as R98's text has it (log 11). -/
def stickyResponse (cause : Byte) : Response :=
  if cause = codeBadMagic then .badMagic else .oversize

/-- QUERY's read-only view of the state (R24, R102). -/
def statusView (s : State) : Response := .okView s.fatal s.cause s.buf.length

end Sys2Proof.Machine
end

