-- ==== Sys2Proof/Machine/Operands.lean ====
section
/-! DEFINITION. The Header Codec (spec/40_codec.md): the header builder with its length-field selector, and the header
parser with the operand fields of every header form (request id, length field, payload). Pure functions of
their arguments (R28). -/

namespace Sys2Proof.Machine

/-! ## Header builder (R70 to R75) -/

/-- The bits `n[hi:lo]` of a natural number, as a number (R10). -/
def natBits (n hi lo : Nat) : Nat := (n >>> lo) % 2 ^ (hi + 1 - lo)

/-- The length-field selector `LFSel(n)` (R70), in the order in which the spec tests the bit ranges. -/
def lfSel (n : Nat) : LF :=
  if natBits n 31 16 ≠ 0 then .w4
  else if natBits n 15 8 ≠ 0 then .w2
  else if n > 0 then .w1
  else .w0

/-- The largest payload length a 32-bit length field holds (R8, R72). -/
abbrev maxPayload : Nat := 2 ^ 32 - 1

/-- `type & 0x1F` (R73). -/
def type5 (type : Byte) : BitVec 5 := type.setWidth 5

/-- The request-id byte of a frame, if there is one (R53, R75). -/
def ridBytes : Option Byte → Bytes
  | none => []
  | some r => [r]

/-- `EncodeFrame` (R75): header byte, magic, request id, length field, payload, in this order (R48, C1). -/
def encodeFrame (type : Byte) (rid : Option Byte) (payload : Bytes) : Bytes :=
  [hdrByte (lflOfLf (lfSel payload.length)) rid.isSome (type5 type)]
    ++ magic
    ++ ridBytes rid
    ++ bytesLE payload.length (lfSel payload.length).bytes
    ++ payload

/-- `EncodeFrame` of a packet, whose type has 5 bits already. -/
def encodePacket (p : Packet) : Bytes := encodeFrame (p.type.setWidth 8) p.rid p.payload

/-! ## Header parser (R79 to R89) -/

/-- `BufRead(i, n)`: the bytes `b[i..i+n)` (R13). Callers read below the length. -/
def slice (b : Bytes) (i n : Nat) : Bytes := (b.drop i).take n

/-- The magic validator (R81): bytes 1 to 4 are `MAGIC`, and no other byte is compared. -/
def magicOK (b : Bytes) : Bool := slice b 1 4 == magic

/-- A parsed header (R14). Lengths are natural numbers (R12); `plen` is below 2^32 because it is read from at most
four bytes. -/
structure Header where
  lfl : BitVec 2
  f : Bool
  type : BitVec 5
  rid : Option Byte
  lf : LF
  plen : Nat
  hl : Nat
deriving DecidableEq, Repr

/-- What `ParseHeader` returns (R85). -/
inductive HeaderResult where
  | short
  | badMagic
  | incomplete
  | header (h : Header)
deriving DecidableEq, Repr

/-- What `Decode` returns (R88). -/
inductive DecodeResult where
  | short
  | badMagic
  | incomplete
  | frame (p : Packet) (consumed : Nat)
deriving DecidableEq, Repr

/-- The request id of a frame with flag `f` (R83): `none` while the byte is missing. -/
def readRid (f : Bool) (b : Bytes) : Option (Option Byte) :=
  if f then (b[5]?).map some else some none

/-- The payload length of a frame with flag `f` and width `lf` (R56, R84): `none` while a length byte is missing. -/
def readLength (f : Bool) (lf : LF) (b : Bytes) : Option Nat :=
  if lf.bytes = 0 then some 0
  else if b.length < 5 + f.toNat + lf.bytes then none
  else some (fromLE (slice b (5 + f.toNat) lf.bytes))

/-- `ParseHeader` after its header byte has been split (R85): the one rule of all eight header forms (R62), with
that form's `LFL` and `F`. The checks stand in the order of R86. -/
def parseForm (lfl : BitVec 2) (f : Bool) (t : BitVec 5) (b : Bytes) : HeaderResult :=
  if b.length < 5 then .short
  else if magicOK b = false then .badMagic
  else
    match readRid f b with
    | none => .incomplete
    | some rid =>
      match readLength f (lfOfLfl lfl) b with
      | none => .incomplete
      | some plen =>
        .header
          { lfl := lfl, f := f, type := t, rid := rid, lf := lfOfLfl lfl, plen := plen,
            hl := 5 + f.toNat + (lfOfLfl lfl).bytes }

/-- `ParseHeader` (R85): total on every byte sequence. -/
def parseHeader (b : Bytes) : HeaderResult :=
  match b with
  | [] => .short
  | h :: _ => parseForm (hdrFields h).1 (hdrFields h).2.1 (hdrFields h).2.2 b

/-- The frame length `total = hl + plen` (R55). -/
def Header.total (h : Header) : Nat := h.hl + h.plen

/-- The packet of a parsed header whose payload is all in `b` (R88). -/
def Header.packet (h : Header) (b : Bytes) : Packet :=
  { type := h.type, rid := h.rid, payload := slice b h.hl h.plen }

/-- `Decode` after `ParseHeader` (R88). -/
def decodeAfter (r : HeaderResult) (b : Bytes) : DecodeResult :=
  match r with
  | .short => .short
  | .badMagic => .badMagic
  | .incomplete => .incomplete
  | .header h => if b.length < h.total then .incomplete else .frame (h.packet b) h.total

/-- `Decode` (R88): total on every byte sequence. -/
def decodeFrame (b : Bytes) : DecodeResult := decodeAfter (parseHeader b) b

end Sys2Proof.Machine
end

