-- ==== Sys2Proof/Machine/Ops.lean ====
section
/-! DEFINITION. The operations the meanings share: the queue primitives (spec/00_scope.md R13), driving the outputs
(R26, R27), entering the fatal state and leaving it (spec/60_exceptions.md R113, R115), the two halves of TAKE
(spec/41_accumulator.md R98), and what stands at the inputs. -/

namespace Sys2Proof.Machine

/-! ## The queue (R13, R33) -/

/-- `BufAppend(bs)`: the bytes go in at the tail. -/
def bufAppend (bs : Bytes) (s : State) : State := { s with buf := s.buf ++ bs }

/-- `BufDrop(n)`: the first `n` bytes go out at the head. -/
def bufDrop (n : Nat) (s : State) : State := { s with buf := s.buf.drop n }

/-- How many bytes of a chunk of `len` bytes a queue of the given depth and level accepts (R95): all of them, or
as many as there is room for. -/
def acceptCount (depth : Depth) (level len : Nat) : Nat :=
  match depth with
  | .inf => len
  | .finite d => min len (d - level)

/-- "`BUF_DEPTH != INF` and `total > BUF_DEPTH`" (R98, R99). -/
def exceedsDepth (total : Nat) : Depth → Bool
  | .inf => false
  | .finite d => decide (d < total)

/-! ## The outputs (R26, R27) -/

/-- Answers a command: one response on `rsp`, and the given bytes on `tx`. -/
def answerWith (r : Response) (out : Bytes) (s : State) : State := { s with rsp := some r, tx := out }

/-- Answers a command that emits nothing on `tx`. -/
def answer (r : Response) (s : State) : State := answerWith r [] s

/-- Drives neither `rsp` nor `tx`. -/
def silent (s : State) : State := { s with rsp := none, tx := [] }

/-! ## The fatal state (R113, R115) -/

/-- Entering the fatal state, the block's one exception (R113): `fatal` and `cause` are written in the same step as
the response, `buf` keeps every byte, nothing else is saved. -/
def enterFatal (c : FatalCondition) (s : State) : State :=
  answer c.response { s with fatal := true, cause := c.code }

/-- Leaving it, and what every source of reset does (R115, R125): the queue is emptied, the flag and the cause
are cleared. -/
def clearState (s : State) : State := { s with buf := [], fatal := false, cause := causeNone }

/-- A reset on the input `rst`: no response, nothing on `tx` (R126). -/
def resetByPin (s : State) : State := silent (clearState s)

/-! ## What TAKE and the header forms share (R98) -/

/-- The last part of TAKE: what it answers for the result of `Decode`. -/
def deliver (d : DecodeResult) (s : State) : State :=
  match d with
  | .short => answer .short s
  | .incomplete => answer .incomplete s
  | .badMagic => answer .badMagic s
  | .frame p n => answer (.okPacket p n) (bufDrop n s)

/-- TAKE once the head of the queue has been parsed (R98): the two fatal conditions, then `Decode`. -/
def takeParsed (r : HeaderResult) (s : State) : State :=
  match r with
  | .badMagic => enterFatal .badMagic s
  | .header h =>
    if exceedsDepth h.total s.depth then enterFatal .oversize s
    else deliver (decodeAfter (.header h) s.buf) s
  | .short => deliver (decodeAfter .short s.buf) s
  | .incomplete => deliver (decodeAfter .incomplete s.buf) s

/-- TAKE with the head of the queue parsed by `parse` (R98): while `fatal = 1` it reports the sticky status and
decodes nothing. -/
def takeWith (parse : Bytes → HeaderResult) (s : State) : State :=
  if s.fatal then answer (stickyResponse s.cause) s else takeParsed (parse s.buf) s

/-- A frame of the header form with selector `lfl`, flag `f` and type `t` at the head of the queue, taken as TAKE
takes it: byte 0 is the form's header byte, and the parser reads the bytes after it (log 4). -/
def takeForm (lfl : BitVec 2) (f : Bool) (t : BitVec 5) (s : State) : State := takeWith (parseForm lfl f t) s

/-! ## The inputs (R26, R38, R126) -/

/-- What the next step works on. -/
inductive Accepted where
  /-- Nothing has arrived. -/
  | nothing
  /-- A reset; the state is the one with the arrival removed from the inputs. -/
  | reset (s : State)
  /-- A command transaction; the state is the one with the arrival removed from the inputs. -/
  | command (t : Transaction) (s : State)
deriving DecidableEq, Repr

/-- Accepts the oldest arrival. A command that arrives together with a reset is performed first and leaves the
reset to the next step (R126). -/
def accept (s : State) : Accepted :=
  match s.port with
  | [] => .nothing
  | .reset :: rest => .reset { s with port := rest }
  | .command t :: rest => .command t { s with port := rest }
  | .commandWithReset t :: rest => .command t { s with port := .reset :: rest }

/-- The answer to a reserved command word: ILLEGAL, no state changed (R66, R103). -/
def answerReserved (s : State) : State := answer .illegal s

/-- The header of a frame with header byte `h`: the byte, the magic, and as many zero bytes as its request id and
its length field take (R47), so that the frame is whole, with an empty payload. -/
def emptyFrame (h : Byte) : Bytes :=
  [h] ++ magic ++ List.replicate ((hdrFields h).2.1.toNat + (lfOfLfl (hdrFields h).1).bytes) 0

/-- Places an encoded instruction where the next step runs it: a command at the port `cmd`; a header byte as the
head frame of a queue that is not in the fatal state, with TAKE at the port (log 5). -/
def placeEncoded (e : Encoded) (s : State) : State :=
  match e with
  | .command t => { s with port := .command t :: s.port }
  | .header h =>
    { s with
      port := .command (Transaction.ofWord (cmdWord opTake)) :: s.port
      buf := emptyFrame h ++ s.buf.drop (emptyFrame h).length
      fatal := false
      cause := causeNone }

/-- Places the instruction of the table's bits `w` (`decodeTableWord`) where the next step runs it. -/
def placeTableWord (nbits w : Nat) (s : State) : State :=
  match bytesLE w ((nbits + 7) / 8) with
  | [] => s
  | b :: _ => placeEncoded (encodedOfByte b) s

end Sys2Proof.Machine
end

