-- ==== Sys2Proof/Machine/Accumulator.lean ====
section
/-! DEFINITION. The meanings of the Frame Accumulator's commands (spec/41_accumulator.md): PUSH, TAKE, QUERY, CLEAR. -/

namespace Sys2Proof.Machine

/-- PUSH (R95, R97): appends the longest part of the chunk, from its first byte on, that fits, and answers how many
bytes that is; the same whether `fatal` is 0 or 1. -/
def execPush (chunk : Bytes) (s : State) : Host.Outcome State Fault Refusal :=
  .next (answer (.okAccepted (acceptCount s.depth s.buf.length chunk.length))
    (bufAppend (chunk.take (acceptCount s.depth s.buf.length chunk.length)) s))

/-- TAKE (R98). -/
def execTake (s : State) : Host.Outcome State Fault Refusal := .next (takeWith parseHeader s)

/-- QUERY (R102): answers the status view and changes no state. -/
def execQuery (s : State) : Host.Outcome State Fault Refusal := .next (answer (statusView s) s)

/-- CLEAR (R104): the same as reset, with a response. -/
def execClear (s : State) : Host.Outcome State Fault Refusal := .next (answer .ok (clearState s))

end Sys2Proof.Machine
end

