-- ==== Sys2Proof/Machine/Codec.lean ====
section
/-! DEFINITION. The meanings of the Header Codec's rows (spec/40_codec.md): the command ENCODE, and the eight header forms
of spec/30_encoding.md R62. A header form's meaning is what TAKE does with a head frame of that form: all eight are
`ParseHeader` and `Decode` (R85, R88) with that form's LFL and F (log 4). -/

namespace Sys2Proof.Machine

/-- ENCODE (R77): emits the frame and answers OK, or emits nothing and answers ENCODE_ERROR where the payload is
too long (R72); reads and writes no element of the state (R78). -/
def execEncode (type : Byte) (rid : Option Byte) (payload : Bytes) (s : State) :
    Host.Outcome State Fault Refusal :=
  .next (if payload.length > maxPayload then answer .encodeError s
    else answerWith .ok (encodeFrame type rid payload) s)

/-- HDR_L0 (R62, R85): LFL 0, F 0. -/
def execHdrL0 (t : BitVec 5) (s : State) : Host.Outcome State Fault Refusal := .next (takeForm 0 false t s)

/-- HDR_L0R (R62, R85): LFL 0, F 1. -/
def execHdrL0R (t : BitVec 5) (s : State) : Host.Outcome State Fault Refusal := .next (takeForm 0 true t s)

/-- HDR_L1 (R62, R85): LFL 1, F 0. -/
def execHdrL1 (t : BitVec 5) (s : State) : Host.Outcome State Fault Refusal := .next (takeForm 1 false t s)

/-- HDR_L1R (R62, R85): LFL 1, F 1. -/
def execHdrL1R (t : BitVec 5) (s : State) : Host.Outcome State Fault Refusal := .next (takeForm 1 true t s)

/-- HDR_L2 (R62, R85): LFL 2, F 0. -/
def execHdrL2 (t : BitVec 5) (s : State) : Host.Outcome State Fault Refusal := .next (takeForm 2 false t s)

/-- HDR_L2R (R62, R85): LFL 2, F 1. -/
def execHdrL2R (t : BitVec 5) (s : State) : Host.Outcome State Fault Refusal := .next (takeForm 2 true t s)

/-- HDR_L4 (R62, R85): LFL 3, F 0. -/
def execHdrL4 (t : BitVec 5) (s : State) : Host.Outcome State Fault Refusal := .next (takeForm 3 false t s)

/-- HDR_L4R (R62, R85): LFL 3, F 1. -/
def execHdrL4R (t : BitVec 5) (s : State) : Host.Outcome State Fault Refusal := .next (takeForm 3 true t s)

end Sys2Proof.Machine
end

