-- ==== Sys2Proof/Machine/Dispatch.lean ====
section
/-! DEFINITION. One arm per row of spec/opcode_table.json. -/

namespace Sys2Proof.Machine

def exec (i : Instr) (s : State) : Host.Outcome State Fault Refusal :=
  match i with
  | .push chunk => Sys2Proof.Machine.execPush chunk s
  | .take => Sys2Proof.Machine.execTake s
  | .encode type rid payload => Sys2Proof.Machine.execEncode type rid payload s
  | .query => Sys2Proof.Machine.execQuery s
  | .clear => Sys2Proof.Machine.execClear s
  | .hdrL0 t => Sys2Proof.Machine.execHdrL0 t s
  | .hdrL0R t => Sys2Proof.Machine.execHdrL0R t s
  | .hdrL1 t => Sys2Proof.Machine.execHdrL1 t s
  | .hdrL1R t => Sys2Proof.Machine.execHdrL1R t s
  | .hdrL2 t => Sys2Proof.Machine.execHdrL2 t s
  | .hdrL2R t => Sys2Proof.Machine.execHdrL2R t s
  | .hdrL4 t => Sys2Proof.Machine.execHdrL4 t s
  | .hdrL4R t => Sys2Proof.Machine.execHdrL4R t s

end Sys2Proof.Machine
end

