-- ==== Sys2Proof/Machine/Step.lean ====
section
/-! DEFINITION. One step of the block: it accepts what has arrived at its inputs and performs it (spec/20_memory.md R38,
R40; spec/70_reset_and_hazards.md R126, R137). -/

namespace Sys2Proof.Machine

/-- Performs one command transaction: the command its word decodes to, or the answer ILLEGAL (R64, R66, R117). -/
def runTransaction (t : Transaction) (s : State) : Host.Outcome State Fault Refusal :=
  match decode (.command t) with
  | .ok i => exec i s
  | .error (.reserved _) => .next (answerReserved s)

/-- One step: one command or one reset, atomically. With nothing at its inputs the block drives no output and stays as
it is (log 1). -/
def step (s : State) : Host.Outcome State Fault Refusal :=
  match accept s with
  | .nothing => .next (silent s)
  | .reset s' => .next (resetByPin s')
  | .command t s' => runTransaction t s'

/-- The state in which the very next step runs the instruction of the table's bits `w` (log 5). -/
def State.withFetchWord (s : State) (nbits w : Nat) : State := placeTableWord nbits w s

end Sys2Proof.Machine
end

