-- ==== Sys2Proof/Machine/HostSide.lean ====
section
/-! DEFINITION. What the host does with the block's commands (spec/30_encoding.md R69, spec/41_accumulator.md R105):
sequences of commands, the pseudo-commands PUSHB, LOOPBACK and NEXT_FRAME, the frame sequence of a stream (spec/20_memory.md
R37) and the naming of packet types (spec/00_scope.md R9, R15). None of it is an instruction of the block, and no step
of the block calls any of it. -/

namespace Sys2Proof.Machine

/-! ## Sequences of commands (R38, R39, R138) -/

/-- The state a command leaves. A command that did not answer a next state would leave the state as it is; every
command answers one. -/
def issue (i : Instr) (s : State) : State :=
  match exec i s with
  | .next s' => s'
  | .fault _ => s
  | .refused _ => s

/-- The state after a sequence of commands: the left fold of the command rules (R39). -/
def issueAll (is : List Instr) (s : State) : State := is.foldl (fun t i => issue i t) s

/-- The responses to a sequence of commands, in order, one for each command (R26). -/
def responses : List Instr → State → List (Option Response)
  | [], _ => []
  | i :: is, s => (issue i s).rsp :: responses is (issue i s)

/-- The packet a response carries, if it is TAKE's OK (R27). -/
def Response.packet? : Response → Option Packet
  | .okPacket p _ => some p
  | _ => none

/-- The packets a sequence of responses carries, in order. -/
def packetsOf (rs : List (Option Response)) : List Packet := rs.filterMap (fun r => r.bind Response.packet?)

/-- The bytes a command's PUSH accepted, given its response (R95): the first `accepted` bytes of its chunk. -/
def acceptedBy (i : Instr) (r : Option Response) : Bytes :=
  match i, r with
  | .push chunk, some (.okAccepted k) => chunk.take k
  | _, _ => []

/-- All bytes a sequence of commands has pushed into the queue, in acceptance order (R37). -/
def acceptedBytes : List Instr → State → Bytes
  | [], _ => []
  | i :: is, s => acceptedBy i (issue i s).rsp ++ acceptedBytes is (issue i s)

/-! ## The frame sequence of a stream (R37) -/

/-- `FrameSeq` with a bound on the number of frames. -/
def frameSeqUpTo : Nat → Bytes → List Packet × DecodeResult
  | 0, b => ([], decodeFrame b)
  | k + 1, b =>
    match decodeFrame b with
    | .frame p n => (p :: (frameSeqUpTo k (b.drop n)).1, (frameSeqUpTo k (b.drop n)).2)
    | r => ([], r)

/-- `FrameSeq(s)` (R37). A frame has at least 5 bytes, so a stream has fewer frames than bytes. -/
def frameSeq (b : Bytes) : List Packet × DecodeResult := frameSeqUpTo b.length b

/-! ## Pseudo-commands (R69, R105) -/

/-- `PUSHB xx` is `PUSH [xx]` (R69). -/
def pushb (b : Byte) : Instr := .push [b]

/-- `LOOPBACK P` (R69): ENCODE, then PUSH of the bytes emitted on `tx`, then TAKE. -/
def loopback (p : Packet) (s : State) : State :=
  let encoded := issue (.encode (p.type.setWidth 8) p.rid p.payload) s
  issue .take (issue (.push encoded.tx) encoded)

/-- What one call of `transport.receive()` returns (R105). -/
inductive Receive where
  /-- Bytes; the empty sequence is the peer's close. -/
  | bytes (chunk : Bytes)
  /-- RecvError. -/
  | error
deriving DecidableEq, Repr

/-- What NEXT_FRAME comes to (R105). -/
inductive NextFrame where
  /-- A packet, the bytes received and not yet accepted, and what the transport has still to return. -/
  | packet (p : Packet) (pending : Bytes) (transport : List Receive) (s : State)
  /-- The session is aborted. -/
  | abort (s : State)
  /-- `receive()` has nothing to return: the host waits in it. -/
  | waiting (s : State)
  /-- The bound on the number of rounds is reached (log 15). -/
  | unfinished (pending : Bytes) (transport : List Receive) (s : State)
deriving DecidableEq, Repr

/-- The number of bytes PUSH's response says were accepted. -/
def acceptedCount : Option Response → Nat
  | some (.okAccepted k) => k
  | _ => 0

/-- What the host does with TAKE's response in NEXT_FRAME (R105): `none` means another round. -/
def afterTake (pending : Bytes) (transport : List Receive) (s : State) : Option NextFrame :=
  match s.rsp with
  | some (.okPacket p _) => some (.packet p pending transport s)
  | some .badMagic => some (.abort s)
  | some .oversize => some (.abort s)
  | _ => none

/-- `NEXT_FRAME(pending)` (R105), with a bound on the number of rounds (log 15). -/
def nextFrame : Nat → Bytes → List Receive → State → NextFrame
  | 0, pending, transport, s => .unfinished pending transport s
  | fuel + 1, b :: bs, transport, s =>
    let pushed := issue (.push (b :: bs)) s
    let left := (b :: bs).drop (acceptedCount pushed.rsp)
    let taken := issue .take pushed
    (afterTake left transport taken).getD (nextFrame fuel left transport taken)
  | _ + 1, [], [], s => .waiting s
  | _ + 1, [], .error :: _, s => .abort s
  | _ + 1, [], .bytes [] :: _, s => .abort s
  | fuel + 1, [], .bytes (b :: bs) :: transport, s =>
    let pushed := issue (.push (b :: bs)) s
    let left := (b :: bs).drop (acceptedCount pushed.rsp)
    let taken := issue .take pushed
    (afterTake left transport taken).getD (nextFrame fuel left transport taken)

/-! ## Packet type names (R9, R15, R58) -/

/-- The sixteen named packet types (R15). -/
def packetTypes : List PacketType :=
  [.help, .hello, .documentation, .register, .registered, .login, .getStatus, .status, .getMail, .mail,
    .sendMail, .configure, .route, .translate, .translation, .result]

/-- `TYPE_CODE` (R9, D15): the numeric codes of the named types, an argument of the host's model, required to
be injective. -/
structure TypeCode where
  code : PacketType → BitVec 5
  injective : Function.Injective code

/-- The host's naming of a 5-bit type (R58): a name, or `none` for the reserved or unknown case. -/
def classify (tc : TypeCode) (t : BitVec 5) : Option PacketType :=
  packetTypes.find? (fun n => tc.code n == t)

end Sys2Proof.Machine
end

