-- ==== Sys2Proof/WellFormed.lean ====
section
/-! DEFINITION. The checks on data that the types alone do not carry. Every `Instr` is well formed as it stands:
its fields have exactly the ranges the encodings admit (a type of 5 bits in a header form; operands of any
length in a command, R65), so there is no check on `Instr` itself. -/

namespace Sys2Proof

/-- R6: a legal `BUF_DEPTH` is `INF` or at least 10, the length of the longest header. -/
def Depth.wf : Depth → Bool
  | .inf => true
  | .finite n => decide (10 ≤ n)

/-- R14: the payload of a packet has at most 2^32 - 1 bytes. -/
def Packet.wf (p : Packet) : Bool := decide (p.payload.length ≤ 2 ^ 32 - 1)

/-- R63, R64: the command word has its reserved bits clear and an operation code of the table. -/
def Transaction.wordWf (t : Transaction) : Bool :=
  t.word.extractLsb' 3 5 == 0 && [1, 2, 3, 4, 7].contains (t.word.extractLsb' 0 3).toNat

/-- R65: only PUSH has a chunk, and only ENCODE has a type, a request id and a payload. -/
def Transaction.operandsWf (t : Transaction) : Bool :=
  (t.word == 0x01 || t.chunk == []) &&
    (t.word == 0x03 || (t.type == 0 && t.rid == none && t.payload == []))

/-- A transaction as the spec writes one: a command of the table and no operand field the command lacks. -/
def Transaction.wf (t : Transaction) : Bool := t.wordWf && t.operandsWf

end Sys2Proof
end

