-- ==== Sys2Proof/Safety.lean ====
section
/-! DEFINITION. The terms the statements use: the invariants of the state (spec/10_state.md R20, spec/41_accumulator.md
R106), and the outcomes of TAKE in the words of spec/60_exceptions.md R116. -/

namespace Sys2Proof.Machine

/-- A level within the capacity (R17, R20 (i)). -/
def withinDepth (level : Nat) : Depth → Bool
  | .inf => true
  | .finite d => decide (level ≤ d)

/-- R20: the queue is within a legal capacity, `fatal = 0` exactly when `cause = 0x00`, and `cause` is one of the three
legal values. -/
abbrev State.Legal (s : State) : Prop :=
  s.depth.wf = true ∧ withinDepth s.buf.length s.depth = true ∧
    (s.fatal = false ↔ s.cause = 0x00) ∧ (s.cause = 0x00 ∨ s.cause = 0x03 ∨ s.cause = 0x04)

/-- R106 for both fatal conditions: while the flag is set, parsing the queue again finds the condition that
`cause` records. -/
def State.faultExplained (s : State) : Bool :=
  if s.fatal = false then true
  else if s.cause = 0x03 then parseHeader s.buf == .badMagic
  else
    match parseHeader s.buf with
    | .header h => s.cause == 0x04 && exceedsDepth h.total s.depth
    | _ => false

/-- The commands the accumulator is fed and drained with (R37): PUSH and TAKE. -/
def isPushOrTake : Instr → Bool
  | .push _ => true
  | .take => true
  | _ => false

/-- TAKE and the header forms it runs: the rows that may enter the fatal state. -/
def isTaking : Instr → Bool
  | .push _ => false
  | .take => true
  | .encode _ _ _ => false
  | .query => false
  | .clear => false
  | .hdrL0 _ => true
  | .hdrL0R _ => true
  | .hdrL1 _ => true
  | .hdrL1R _ => true
  | .hdrL2 _ => true
  | .hdrL2R _ => true
  | .hdrL4 _ => true
  | .hdrL4R _ => true

/-! ## The header byte in numbers (R50, R51, R54), beside the decoder's bit operations -/

/-- `F`, bit 5 of a header byte (R50), as a number. -/
def flagOf (h : Byte) : Nat := h.toNat / 32 % 2

/-- The width in bytes of the length field that bits 7 and 6 of a header byte select (R51). -/
def widthOf (h : Byte) : Nat :=
  match h.toNat / 64 with
  | 0 => 0
  | 1 => 1
  | 2 => 2
  | _ => 4

/-- `TYPE`, bits 4 to 0 of a header byte (R50). -/
def typeOf (h : Byte) : BitVec 5 := BitVec.ofNat 5 h.toNat

/-- The header length `hl = 5 + F + LF` of a header byte (R54). -/
def headerLength (h : Byte) : Nat := 5 + flagOf h + widthOf h

/-- The payload length of a frame with flag `f` and length-field width `w` (R56), read from bytes that are there. -/
def lengthField (f w : Nat) (b : Bytes) : Nat := fromLE ((b.drop (5 + f)).take w)

/-- The packet of a frame with flag `f`, width `w` and type `t` whose bytes are all there (R47, R88). -/
def packetAt (f w : Nat) (t : BitVec 5) (b : Bytes) : Packet :=
  { type := t
    rid := if f = 0 then none else some (b.getD 5 0)
    payload := (b.drop (5 + f + w)).take (lengthField f w b) }

/-- What TAKE does with a head frame of flag `f`, length-field width `w` and type `t`, as the list of R116: the
checks 1 to 7 in their order, the first that applies wins. -/
def takeOutcome (f w : Nat) (t : BitVec 5) (s : State) : State :=
  if s.fatal = true then
    { s with rsp := some (if s.cause = 0x03 then .badMagic else .oversize), tx := [] }
  else if s.buf.length < 5 then { s with rsp := some .short, tx := [] }
  else if (s.buf.drop 1).take 4 ≠ [0x58, 0x52, 0x32, 0x4B] then
    { s with fatal := true, cause := 0x03, rsp := some .badMagic, tx := [] }
  else if s.buf.length < 5 + f + w then { s with rsp := some .incomplete, tx := [] }
  else if withinDepth (5 + f + w + lengthField f w s.buf) s.depth = false then
    { s with fatal := true, cause := 0x04, rsp := some .oversize, tx := [] }
  else if s.buf.length < 5 + f + w + lengthField f w s.buf then { s with rsp := some .incomplete, tx := [] }
  else
    { s with
      buf := s.buf.drop (5 + f + w + lengthField f w s.buf)
      rsp := some (.okPacket (packetAt f w t s.buf) (5 + f + w + lengthField f w s.buf))
      tx := [] }

/-- The response TAKE's answer to a result of `Decode` is. -/
def DecodeResult.response : DecodeResult → Response
  | .short => .short
  | .badMagic => .badMagic
  | .incomplete => .incomplete
  | .frame p n => .okPacket p n

/-- Whether an arrival resets the block or clears it (R115): the input `rst`, or the command word of CLEAR. -/
def Arrival.clears : Arrival → Bool
  | .command t => t.word == 0x07
  | .reset => true
  | .commandWithReset _ => true

end Sys2Proof.Machine
end

