-- ==== Sys2Proof/Certificates/Slice0/Obligations.lean ====
section
/-! DEFINITION. The statements about the block, in the order of the spec's rules: encodings (30), the codec (40), the
commands (41), the fatal state (60), reset and steps (70). Each docstring names the rule. Where a statement speaks of
`port`, that the inputs stand in State as a list is the model's form (log 1). -/

open Sys2Proof Sys2Proof.Machine

/-! ## Encodings (spec/30_encoding.md) -/

/-- Words written out from R64 and from vectors HS1 to HS8 of spec/95_test_vectors.md 2.2 decode to their rows. -/
def Obligations.WrittenWordsDecode : Prop :=
  decode (.command (Transaction.ofWord 0x01)) = .ok (.push []) ∧
    decode (.command (Transaction.ofWord 0x02)) = .ok .take ∧
    decode (.command (Transaction.ofWord 0x03)) = .ok (.encode 0 none []) ∧
    decode (.command (Transaction.ofWord 0x04)) = .ok .query ∧
    decode (.command (Transaction.ofWord 0x07)) = .ok .clear ∧
    decode (.header 0xA7) = .ok (.hdrL2R 0x07) ∧
    decode (.header 0x3F) = .ok (.hdrL0R 0x1F) ∧
    decode (.header 0xE0) = .ok (.hdrL4R 0x00) ∧
    decode (.header 0x58) = .ok (.hdrL1 0x18) ∧
    decode (.header 0xC2) = .ok (.hdrL4 0x02) ∧
    decode (.header 0x82) = .ok (.hdrL2 0x02) ∧
    decode (.header 0x63) = .ok (.hdrL1R 0x03) ∧
    decode (.header 0x05) = .ok (.hdrL0 0x05)

/-- Decode and encode agree on every instruction, with every operand at every value (R62, R64, R65). Every
instruction is well formed (`Sys2Proof.WellFormed`), so there is no hypothesis. -/
def Obligations.DecodeOfEncodeIsTheInstruction : Prop := ∀ i : Instr, decode (encode i) = .ok i

/-- A transaction written as the spec writes one (`Transaction.wf`: R63, R64, R65) is the encoding of the
instruction it decodes to. -/
def Obligations.WellFormedTransactionReencodes : Prop :=
  ∀ t : Transaction, t.wf = true → ∃ i, decode (.command t) = .ok i ∧ encode i = .command t

/-- R64: the table of operation codes, for every transaction with no operand field but those R65 gives its command. For
stray operand fields see `StrayOperandFieldsAreIgnored`. A reserved word is reserved whatever operand fields come with
it (R65, R103). -/
def Obligations.CommandWordsSelectTheCommands : Prop :=
  ∀ t : Transaction,
    (t.operandsWf = true →
        (t.word = 0x01 → decode (.command t) = .ok (.push t.chunk)) ∧
          (t.word = 0x02 → decode (.command t) = .ok .take) ∧
          (t.word = 0x03 → decode (.command t) = .ok (.encode t.type t.rid t.payload)) ∧
          (t.word = 0x04 → decode (.command t) = .ok .query) ∧
          (t.word = 0x07 → decode (.command t) = .ok .clear)) ∧
      (t.word.toNat % 8 = 0 ∨ t.word.toNat % 8 = 5 ∨ t.word.toNat % 8 = 6 ∨ t.word.toNat / 8 ≠ 0 →
        decode (.command t) = .error (.reserved t.word))

/-- R62 and R57: bits 7 to 5 of a header byte choose the form, bits 4 to 0 are TYPE, and every header byte is the
encoding of its form; the form fixes LF, F and hl. -/
def Obligations.HeaderBytesNameTheirForms : Prop :=
  ∀ h : Byte, ∃ i lf f,
    decode (.header h) = .ok i ∧ encode i = .header h ∧
      i = headerForm lf f (BitVec.ofNat 5 (h.toNat % 32)) ∧
      (h.toNat / 32, lf, f, headerLength h) ∈
        [(0, LF.w0, false, 5), (1, LF.w0, true, 6), (2, LF.w1, false, 6), (3, LF.w1, true, 7),
          (4, LF.w2, false, 7), (5, LF.w2, true, 8), (6, LF.w4, false, 9), (7, LF.w4, true, 10)]

/-- R79: the bit-field decoder reads H[7:6], H[5] and H[4:0], and is the exact inverse of `HdrByte`. -/
def Obligations.HeaderSplitInvertsCompose : Prop :=
  (∀ h : Byte,
    (hdrFields h).1.toNat = h.toNat / 64 ∧ (hdrFields h).2.1.toNat = h.toNat / 32 % 2 ∧
      (hdrFields h).2.2.toNat = h.toNat % 32) ∧
    ∀ (lfl : BitVec 2) (f : Bool) (t : BitVec 5), hdrFields (hdrByte lfl f t) = (lfl, f, t)

/-! ## The Header Codec (spec/40_codec.md) -/

/-- R71: the selector by magnitude, with the LFL of its width; it is the narrowest width that holds the length, and
`LE` at that width loses no bit. -/
def Obligations.LengthSelectorByMagnitude : Prop :=
  ∀ n : Nat, n ≤ 2 ^ 32 - 1 →
    (n = 0 → lfSel n = .w0 ∧ lflOfLf (lfSel n) = 0) ∧
      (1 ≤ n ∧ n ≤ 255 → lfSel n = .w1 ∧ lflOfLf (lfSel n) = 1) ∧
      (256 ≤ n ∧ n ≤ 65535 → lfSel n = .w2 ∧ lflOfLf (lfSel n) = 2) ∧
      (65536 ≤ n → lfSel n = .w4 ∧ lflOfLf (lfSel n) = 3) ∧
      (∀ w : LF, n < 256 ^ w.bytes → (lfSel n).bytes ≤ w.bytes) ∧
      fromLE (bytesLE n (lfSel n).bytes) = n

/-- R76: the length of an encoded frame, which is header length plus payload length. -/
def Obligations.EncodedFrameLength : Prop :=
  ∀ (type : Byte) (rid : Option Byte) (payload : Bytes),
    (encodeFrame type rid payload).length
      = 5 + rid.isSome.toNat + (lfSel payload.length).bytes + payload.length

/-- R90: decoding an encoded packet, with any bytes behind it, gives the packet and the number of its bytes. It would
not hold in the field order that lost (C1): with the request id before the magic, every frame that has one is
BAD_MAGIC. -/
def Obligations.DecodeUndoesEncode : Prop :=
  (∀ (p : Packet) (x : Bytes), p.wf = true →
    decodeFrame (encodePacket p ++ x) = .frame p (encodePacket p).length) ∧
    ∀ (h r : Byte) (rest : Bytes), decodeFrame ([h] ++ [r] ++ magic ++ rest) = .badMagic

/-- R91: a frame and a header once read stay the same whatever bytes follow. -/
def Obligations.DecodingIsStableUnderMoreBytes : Prop :=
  (∀ b x p n, decodeFrame b = .frame p n → decodeFrame (b ++ x) = .frame p n) ∧
    ∀ b x h, parseHeader b = .header h → parseHeader (b ++ x) = .header h

/-- The definite parts of R92: a wrong magic stays wrong whatever bytes follow, and SHORT is exactly fewer than 5
bytes. -/
def Obligations.WrongMagicStaysWrong : Prop :=
  (∀ b x, parseHeader b = .badMagic →
    parseHeader (b ++ x) = .badMagic ∧ decodeFrame (b ++ x) = .badMagic) ∧
    ∀ b, decodeFrame b = .short ↔ b.length < 5

/-- R93: one corrupted magic byte makes the frame BAD_MAGIC, and so is every part of it from its first byte on that
has at least 5 bytes. -/
def Obligations.CorruptedMagicIsBadMagic : Prop :=
  ∀ (p : Packet) (i : Nat) (v : Byte), p.wf = true → 1 ≤ i → i ≤ 4 → magic[i - 1]? ≠ some v →
    decodeFrame ((encodePacket p).set i v) = .badMagic ∧
      ∀ k, 5 ≤ k → decodeFrame (((encodePacket p).set i v).take k) = .badMagic

/-- R94: a decoded frame re-encodes to its own bytes exactly when its length field is canonical; otherwise it
re-encodes to a strictly shorter frame of the same packet. -/
def Obligations.ReencodingIffCanonical : Prop :=
  ∀ (h : Byte) (rest : Bytes) (p : Packet) (n : Nat), decodeFrame (h :: rest) = .frame p n →
    (encodePacket p = (h :: rest).take n ↔ (hdrFields h).1 = lflOfLf (lfSel p.payload.length)) ∧
      ((hdrFields h).1 ≠ lflOfLf (lfSel p.payload.length) →
        (encodePacket p).length < n ∧
          decodeFrame (encodePacket p) = .frame p (encodePacket p).length)

/-- R77, R72, R73: ENCODE emits header byte, magic, request id, little-endian length and payload, written here in
numbers, and answers OK; for a payload of more than 2^32 - 1 bytes it emits nothing and answers ENCODE_ERROR. Nothing
else changes, whatever the state. -/
def Obligations.EncodeEmitsTheFrame : Prop :=
  (∀ t : Transaction, t.operandsWf = true → t.word = 0x03 →
    decode (.command t) = .ok (.encode t.type t.rid t.payload)) ∧
    ∀ (type : Byte) (rid : Option Byte) (payload : Bytes) (s : State),
      let n := payload.length
      let low := 32 * rid.isSome.toNat + type.toNat % 32
      let frame (lfl : Nat) (len : Bytes) : Bytes :=
        [BitVec.ofNat 8 (64 * lfl + low), 0x58, 0x52, 0x32, 0x4B] ++ rid.toList ++ len ++ payload
      let byte (k : Nat) : Byte := BitVec.ofNat 8 (n / 256 ^ k)
      exec (.encode type rid payload) s =
        .next
          (if n > 2 ^ 32 - 1 then { s with rsp := some .encodeError, tx := [] }
          else if n = 0 then { s with rsp := some .ok, tx := frame 0 [] }
          else if n ≤ 255 then { s with rsp := some .ok, tx := frame 1 [byte 0] }
          else if n ≤ 65535 then { s with rsp := some .ok, tx := frame 2 [byte 0, byte 1] }
          else { s with rsp := some .ok, tx := frame 3 [byte 0, byte 1, byte 2, byte 3] })

/-- R78: what ENCODE answers and emits is the same in every two states, so it succeeds in the fatal state too, and it
writes no element of `st`. -/
def Obligations.EncodeIgnoresTheState : Prop :=
  ∀ (type : Byte) (rid : Option Byte) (payload : Bytes) (s₁ s₂ : State),
    ∃ t₁ t₂, exec (.encode type rid payload) s₁ = .next t₁ ∧ exec (.encode type rid payload) s₂ = .next t₂ ∧
      t₁.rsp = t₂.rsp ∧ t₁.tx = t₂.tx ∧ (payload.length ≤ 2 ^ 32 - 1 → t₁.rsp = some .ok) ∧
      t₁.buf = s₁.buf ∧ t₁.fatal = s₁.fatal ∧ t₁.cause = s₁.cause

/-! ## The header forms (spec/30_encoding.md R62) as TAKE runs them -/

/-- "All eight forms decode under one rule" (R62): TAKE on a queue whose head byte is `h` is the header form of `h`.
That a header form is an instruction with this meaning is the model's reading (log 4). -/
def Obligations.TakeRunsTheHeaderForm : Prop :=
  ∀ (h : Byte) (rest : Bytes) (s : State), s.buf = h :: rest →
    ∃ i, decode (.header h) = .ok i ∧ exec i s = exec .take s

/-- Every header form, in every state, answers and changes what the list of R116 says for that form's LF and F: the
sticky status, SHORT, BAD_MAGIC, INCOMPLETE, OVERSIZE, INCOMPLETE, or OK. That a header form is an instruction is the
model's reading (log 4); the sticky status for a `cause` that no step writes is log 11. -/
def Obligations.HeaderFormsFollowTheOrderOfChecks : Prop :=
  ∀ (lf : LF) (f : Bool) (t : BitVec 5) (s : State),
    exec (headerForm lf f t) s = .next (takeOutcome f.toNat lf.bytes t s)

/-- HDR_L0 and HDR_L0R (R62, R47, log 4): a whole frame without a length field, written byte by byte, is removed and
returned with an empty payload. -/
def Obligations.FormsWithoutLengthDeliver : Prop :=
  ∀ (t : BitVec 5) (r : Byte) (rest : Bytes) (s : State), s.fatal = false →
    (s.buf = BitVec.ofNat 8 (0x00 + t.toNat) :: 0x58 :: 0x52 :: 0x32 :: 0x4B :: rest →
      withinDepth 5 s.depth = true →
      exec (.hdrL0 t) s = .next { s with buf := rest, rsp := some (.okPacket ⟨t, none, []⟩ 5), tx := [] }) ∧
    (s.buf = BitVec.ofNat 8 (0x20 + t.toNat) :: 0x58 :: 0x52 :: 0x32 :: 0x4B :: r :: rest →
      withinDepth 6 s.depth = true →
      exec (.hdrL0R t) s = .next { s with buf := rest, rsp := some (.okPacket ⟨t, some r, []⟩ 6), tx := [] })

/-- HDR_L1 and HDR_L1R (R62, R47, R56, log 4): one length byte. -/
def Obligations.FormsWithOneLengthByteDeliver : Prop :=
  ∀ (t : BitVec 5) (r n : Byte) (payload rest : Bytes) (s : State), s.fatal = false → payload.length = n.toNat →
    (s.buf = BitVec.ofNat 8 (0x40 + t.toNat) :: 0x58 :: 0x52 :: 0x32 :: 0x4B :: n :: (payload ++ rest) →
      withinDepth (6 + payload.length) s.depth = true →
      exec (.hdrL1 t) s =
        .next { s with buf := rest, rsp := some (.okPacket ⟨t, none, payload⟩ (6 + payload.length)), tx := [] }) ∧
    (s.buf = BitVec.ofNat 8 (0x60 + t.toNat) :: 0x58 :: 0x52 :: 0x32 :: 0x4B :: r :: n :: (payload ++ rest) →
      withinDepth (7 + payload.length) s.depth = true →
      exec (.hdrL1R t) s =
        .next { s with buf := rest, rsp := some (.okPacket ⟨t, some r, payload⟩ (7 + payload.length)), tx := [] })

/-- HDR_L2 and HDR_L2R (R62, R47, R56, log 4): two length bytes, the low one first. -/
def Obligations.FormsWithTwoLengthBytesDeliver : Prop :=
  ∀ (t : BitVec 5) (r n₀ n₁ : Byte) (payload rest : Bytes) (s : State), s.fatal = false →
    payload.length = n₀.toNat + 256 * n₁.toNat →
    (s.buf = BitVec.ofNat 8 (0x80 + t.toNat) :: 0x58 :: 0x52 :: 0x32 :: 0x4B :: n₀ :: n₁ :: (payload ++ rest) →
      withinDepth (7 + payload.length) s.depth = true →
      exec (.hdrL2 t) s =
        .next { s with buf := rest, rsp := some (.okPacket ⟨t, none, payload⟩ (7 + payload.length)), tx := [] }) ∧
    (s.buf = BitVec.ofNat 8 (0xA0 + t.toNat) :: 0x58 :: 0x52 :: 0x32 :: 0x4B :: r :: n₀ :: n₁ :: (payload ++ rest) →
      withinDepth (8 + payload.length) s.depth = true →
      exec (.hdrL2R t) s =
        .next { s with buf := rest, rsp := some (.okPacket ⟨t, some r, payload⟩ (8 + payload.length)), tx := [] })

/-- HDR_L4 and HDR_L4R (R62, R47, R56, log 4): four length bytes, the low one first. -/
def Obligations.FormsWithFourLengthBytesDeliver : Prop :=
  ∀ (t : BitVec 5) (r n₀ n₁ n₂ n₃ : Byte) (payload rest : Bytes) (s : State), s.fatal = false →
    payload.length = n₀.toNat + 256 * n₁.toNat + 65536 * n₂.toNat + 16777216 * n₃.toNat →
    (s.buf = BitVec.ofNat 8 (0xC0 + t.toNat) :: 0x58 :: 0x52 :: 0x32 :: 0x4B ::
        n₀ :: n₁ :: n₂ :: n₃ :: (payload ++ rest) →
      withinDepth (9 + payload.length) s.depth = true →
      exec (.hdrL4 t) s =
        .next { s with buf := rest, rsp := some (.okPacket ⟨t, none, payload⟩ (9 + payload.length)), tx := [] }) ∧
    (s.buf = BitVec.ofNat 8 (0xE0 + t.toNat) :: 0x58 :: 0x52 :: 0x32 :: 0x4B ::
        r :: n₀ :: n₁ :: n₂ :: n₃ :: (payload ++ rest) →
      withinDepth (10 + payload.length) s.depth = true →
      exec (.hdrL4R t) s =
        .next { s with buf := rest, rsp := some (.okPacket ⟨t, some r, payload⟩ (10 + payload.length)), tx := [] })

/-! ## The Frame Accumulator (spec/41_accumulator.md) -/

/-- R95: PUSH appends the first `k` bytes of its chunk, where `k` is the chunk's length or, with a finite
`BUF_DEPTH`, the smaller of that and the room; it answers `k` and changes nothing else, whatever `fatal` is (R97).
The premise is the invariant of R20, which `LegalStatesAreKept` states: outside it the room of a queue too long is
log 12. -/
def Obligations.PushAppendsWhatFits : Prop :=
  (∀ t : Transaction, t.operandsWf = true → t.word = 0x01 → decode (.command t) = .ok (.push t.chunk)) ∧
    ∀ (chunk : Bytes) (s : State), s.Legal →
      let append (k : Nat) : State :=
        { s with buf := s.buf ++ chunk.take k, rsp := some (.okAccepted k), tx := [] }
      exec (.push chunk) s =
        .next (match s.depth with
          | .inf => append chunk.length
          | .finite d => append (min chunk.length (d - s.buf.length)))

/-- R96: a chunk that one PUSH accepts whole leaves the same `st` when it is pushed in pieces, however it is cut;
and after any pushes the queue is what it held followed by the accepted bytes, in order. -/
def Obligations.PushSplitsFreely : Prop :=
  (∀ (pieces : List Bytes) (s t : State), exec (.push pieces.flatten) s = .next t →
    t.rsp = some (.okAccepted pieces.flatten.length) →
    (issueAll (pieces.map Instr.push) s).buf = t.buf ∧
      (issueAll (pieces.map Instr.push) s).fatal = t.fatal ∧
      (issueAll (pieces.map Instr.push) s).cause = t.cause) ∧
    ∀ (pieces : List Bytes) (s : State),
      (issueAll (pieces.map Instr.push) s).buf = s.buf ++ acceptedBytes (pieces.map Instr.push) s ∧
        (issueAll (pieces.map Instr.push) s).fatal = s.fatal ∧
        (issueAll (pieces.map Instr.push) s).cause = s.cause

/-- R98, R116: TAKE, in every legal state, answers and changes what the list of R116 says for the header byte at the
head of the queue. The premise is the invariant of R20, which `LegalStatesAreKept` states: outside it the sticky status is
log 11. -/
def Obligations.TakeFollowsTheOrderOfChecks : Prop :=
  (∀ t : Transaction, t.operandsWf = true → t.word = 0x02 → decode (.command t) = .ok .take) ∧
    ∀ s : State, s.Legal →
      exec .take s =
        .next (takeOutcome (flagOf (s.buf.headD 0)) (widthOf (s.buf.headD 0)) (typeOf (s.buf.headD 0)) s)

/-- TAKE returns the packet whose encoding stands at the head of the queue, and removes exactly those bytes (R98
with R90). -/
def Obligations.TakeReturnsTheEncodedPacket : Prop :=
  ∀ (p : Packet) (rest : Bytes) (s : State), p.wf = true → s.fatal = false →
    s.buf = encodePacket p ++ rest → withinDepth (encodePacket p).length s.depth = true →
    exec .take s =
      .next { s with buf := rest, rsp := some (.okPacket p (encodePacket p).length), tx := [] }

/-- R42, R55, R89: a TAKE that returns a packet consumes header and payload: at least 5 bytes, at most
10 + 2^32 - 1, at most BUF_DEPTH, and exactly the header length of the head byte plus the payload. -/
def Obligations.ConsumedBytesAreTheFrame : Prop :=
  ∀ (s t : State) (p : Packet) (n : Nat), exec .take s = .next t → t.rsp = some (.okPacket p n) →
    p.wf = true ∧ 5 ≤ n ∧ n ≤ 10 + (2 ^ 32 - 1) ∧ withinDepth n s.depth = true ∧
      n = headerLength (s.buf.headD 0) + p.payload.length ∧ t.buf = s.buf.drop n ∧ n ≤ s.buf.length

/-- R99: TAKE reports OVERSIZE as soon as the header is read, however few bytes of the payload are there; with
`BUF_DEPTH = INF` it never reports OVERSIZE, the sticky status included. The premise of that part is the invariant
`FaultStaysExplained` states: it rules out states in which `cause` records a condition the queue does not show. -/
def Obligations.OversizeAsSoonAsTheHeaderIsRead : Prop :=
  (∀ (s : State) (d : Nat) (h : Header), s.fatal = false → s.depth = .finite d →
    parseHeader s.buf = .header h → d < h.hl + h.plen →
    exec .take s = .next { s with fatal := true, cause := 0x04, rsp := some .oversize, tx := [] }) ∧
    ∀ s t : State, s.faultExplained = true → s.depth = .inf → exec .take s = .next t → t.rsp ≠ some .oversize

/-- R100: a full queue of a legal finite depth always makes progress; so a TAKE after a PUSH that accepted less than it
was offered always answers OK, BAD_MAGIC or OVERSIZE. -/
def Obligations.FullQueueMakesProgress : Prop :=
  ∀ (s : State) (d : Nat), s.depth = .finite d → 10 ≤ d → s.fatal = false →
    (s.buf.length = d →
      ∃ t, exec .take s = .next t ∧
        (t.rsp = some .badMagic ∨ t.rsp = some .oversize ∨ ∃ p n, t.rsp = some (.okPacket p n))) ∧
      ∀ (chunk : Bytes) (t : State) (k : Nat), s.buf.length ≤ d → exec (.push chunk) s = .next t →
        t.rsp = some (.okAccepted k) → k < chunk.length →
        ∃ u, exec .take t = .next u ∧
          (u.rsp = some .badMagic ∨ u.rsp = some .oversize ∨ ∃ p n, u.rsp = some (.okPacket p n))

/-- R101: an encoded packet pushed one byte at a time from reset, with a TAKE after each byte, gives SHORT below 5
bytes, INCOMPLETE below the whole frame, then the packet, with the queue empty. -/
def Obligations.IncrementalDelivery : Prop :=
  ∀ (p : Packet) (d : Depth) (k : Nat), p.wf = true → withinDepth (encodePacket p).length d = true →
    1 ≤ k → k ≤ (encodePacket p).length →
    let s := issueAll (((encodePacket p).take k).flatMap (fun b => [pushb b, .take])) (State.resetAt d)
    s.rsp =
        some (if k < 5 then .short
          else if k < (encodePacket p).length then .incomplete
          else .okPacket p (encodePacket p).length) ∧
      s.buf = (if k < (encodePacket p).length then (encodePacket p).take k else []) ∧
      s.fatal = false

/-- R37: the packets that an interleaving of PUSH and TAKE without an OVERSIZE returns do not depend on the chunks or on
the moments of the TAKEs: they are the first packets of the frame sequence of the accepted bytes. Where one more TAKE
answers neither OK nor OVERSIZE, they are all of that sequence, and its answer is the frame sequence's own end. -/
def Obligations.ChunkingIndependence : Prop :=
  ∀ (is : List Instr) (s : State), (∀ i ∈ is, isPushOrTake i = true) → s.buf = [] → s.fatal = false →
    (∀ r ∈ responses is s, r ≠ some .oversize) →
    packetsOf (responses is s) <+: (frameSeq (acceptedBytes is s)).1 ∧
      ((∀ r ∈ responses (is ++ [.take]) s, r ≠ some .oversize) →
        (issueAll (is ++ [.take]) s).rsp.bind Response.packet? = none →
        packetsOf (responses (is ++ [.take]) s) = (frameSeq (acceptedBytes is s)).1 ∧
          (issueAll (is ++ [.take]) s).rsp = some (frameSeq (acceptedBytes is s)).2.response)

/-- LOOPBACK (R69 with R90): encoding a packet, pushing what was emitted and taking gives the packet back and leaves
an empty queue. -/
def Obligations.LoopbackReturnsThePacket : Prop :=
  ∀ (p : Packet) (s : State), p.wf = true → s.fatal = false → s.buf = [] →
    withinDepth (encodePacket p).length s.depth = true →
    (loopback p s).rsp = some (.okPacket p (encodePacket p).length) ∧ (loopback p s).buf = [] ∧
      (loopback p s).fatal = false

/-- NEXT_FRAME (R105 with R101): a transport that delivers an encoded packet in any non-empty chunks makes the host's
loop return that packet, with nothing pending and an empty queue. The bound on the rounds is the model's (log 15). -/
def Obligations.NextFrameDeliversOverAnyChunks : Prop :=
  ∀ (p : Packet) (chunks : List Bytes) (fuel : Nat) (s : State), p.wf = true → chunks.flatten = encodePacket p →
    (∀ c ∈ chunks, c ≠ []) → chunks.length ≤ fuel → s.buf = [] → s.fatal = false →
    withinDepth (encodePacket p).length s.depth = true →
    ∃ t, nextFrame fuel [] (chunks.map Receive.bytes) s = .packet p [] [] t ∧ t.buf = [] ∧ t.fatal = false

/-- R102: QUERY answers the flag, the cause and the level, and changes nothing else. -/
def Obligations.QueryReportsTheView : Prop :=
  (∀ t : Transaction, t.operandsWf = true → t.word = 0x04 → decode (.command t) = .ok .query) ∧
    ∀ s : State,
      exec .query s = .next { s with rsp := some (.okView s.fatal s.cause s.buf.length), tx := [] }

/-- R104, R125: CLEAR answers OK and leaves the reset state of R30; power-on, the input `rst` and CLEAR have the same
effect on `buf`, `fatal` and `cause`; and the input `rst` drives no response and emits nothing (R126). -/
def Obligations.ClearIsReset : Prop :=
  (∀ t : Transaction, t.operandsWf = true → t.word = 0x07 → decode (.command t) = .ok .clear) ∧
    (∀ s : State,
      exec .clear s = .next { s with buf := [], fatal := false, cause := 0x00, rsp := some .ok, tx := [] }) ∧
    (∀ (s : State) (rest : List Arrival), s.port = .reset :: rest →
      step s =
        .next { s with buf := [], fatal := false, cause := 0x00, port := rest, rsp := none, tx := [] }) ∧
    State.reset.buf = [] ∧ State.reset.fatal = false ∧ State.reset.cause = 0x00

/-- R106: once the head of the queue has a wrong magic, no sequence of PUSH and TAKE removes the bytes that decided it:
the sticky flag gives the answer that parsing again would give, and no packet is returned. -/
def Obligations.BadMagicIsPermanent : Prop :=
  ∀ (is : List Instr) (s : State), (∀ i ∈ is, isPushOrTake i = true) → parseHeader s.buf = .badMagic →
    (s.fatal = false ∨ s.cause = 0x03) →
    (issueAll is s).buf.take 5 = s.buf.take 5 ∧ parseHeader (issueAll is s).buf = .badMagic ∧
      (issue .take (issueAll is s)).rsp = some .badMagic ∧ packetsOf (responses is s) = []

/-! ## Status codes and the fatal state (spec/60_exceptions.md) -/

/-- R107: which status codes each command answers with, and that exactly codes 0x03 and 0x04, found while `fatal`
is 0, set `fatal`, with `cause` the code. -/
def Obligations.StatusCodesByCommand : Prop :=
  (∀ r : Response, r.status.toNat ≤ 0x06) ∧
    ∀ (i : Instr) (s t : State), exec i s = .next t →
      ∃ r, t.rsp = some r ∧
        (match i with
          | .push _ => r.status = 0x00
          | .encode _ _ _ => r.status = 0x00 ∨ r.status = 0x05
          | .query => r.status = 0x00
          | .clear => r.status = 0x00
          | _ => r.status.toNat ≤ 0x04) ∧
        (s.fatal = false → (t.fatal = true ↔ r.status = 0x03 ∨ r.status = 0x04)) ∧
        (s.fatal = false → t.fatal = true → t.cause = r.status)

/-- R113: entering the fatal state writes `fatal`, `cause` and the response and nothing else; PUSH, ENCODE, QUERY and
CLEAR never enter it. -/
def Obligations.FatalEntryIsPrecise : Prop :=
  (∀ (i : Instr) (s t : State), exec i s = .next t → s.fatal = false → t.fatal = true → isTaking i = true) ∧
    ∀ s t : State, exec .take s = .next t → s.fatal = false →
      (t.rsp = some .badMagic → t = { s with fatal := true, cause := 0x03, rsp := some .badMagic, tx := [] }) ∧
        (t.rsp = some .oversize → t = { s with fatal := true, cause := 0x04, rsp := some .oversize, tx := [] }) ∧
        (t.fatal = true → t.rsp = some .badMagic ∨ t.rsp = some .oversize)

/-- R114: in the fatal state TAKE reports the cause and PUSH, ENCODE, QUERY, CLEAR and reserved words work as
always. -/
def Obligations.FatalStateBehaviour : Prop :=
  ∀ s : State, s.fatal = true → (s.cause = 0x03 ∨ s.cause = 0x04) →
    (∃ t, exec .take s = .next t ∧ t.rsp = some (if s.cause = 0x03 then .badMagic else .oversize) ∧
      t.buf = s.buf ∧ t.fatal = true ∧ t.cause = s.cause) ∧
    (∀ chunk, ∃ t k, exec (.push chunk) s = .next t ∧ t.rsp = some (.okAccepted k) ∧
      t.buf = s.buf ++ chunk.take k ∧ (s.depth = .inf → k = chunk.length) ∧
      (∀ d, s.depth = .finite d → s.buf.length ≤ d → k = min chunk.length (d - s.buf.length))) ∧
    (∀ type rid payload, ∃ t u, exec (.encode type rid payload) s = .next t ∧
      exec (.encode type rid payload) (State.resetAt s.depth) = .next u ∧ t.rsp = u.rsp ∧ t.tx = u.tx ∧
      (payload.length ≤ 2 ^ 32 - 1 → t.rsp = some .ok ∧ t.tx = encodeFrame type rid payload)) ∧
    (∃ t, exec .query s = .next t ∧ t.rsp = some (.okView true s.cause s.buf.length)) ∧
    (∃ t, exec .clear s = .next t ∧ t.rsp = some .ok ∧ t.fatal = false) ∧
    ∀ (w : Transaction) (rest : List Arrival), w.word.toNat ∉ [1, 2, 3, 4, 7] → s.port = .command w :: rest →
      ∃ t, step s = .next t ∧ t.rsp = some .illegal ∧ t.fatal = true

/-- R115, R18, R19: in one step only a reset or CLEAR leaves the fatal state, and either empties the queue; as long as
it is not left, `cause` keeps the first condition. (Which of the two steps a command with a reset takes leaves it is
`ResetTakesEffectBetweenCommands`.) -/
def Obligations.OnlyResetOrClearLeavesFatal : Prop :=
  ∀ s t : State, step s = .next t → s.fatal = true →
    (t.fatal = true → t.cause = s.cause) ∧
      (t.fatal = false →
        t.buf = [] ∧ t.cause = 0x00 ∧
          ((∃ rest, s.port = .reset :: rest) ∨ (∃ w rest, s.port = .commandWithReset w :: rest) ∨
            ∃ w rest, w.word = 0x07 ∧ s.port = .command w :: rest))

/-- R114, R115, R138: from a fatal state, every step before the first arrival that brings a reset or CLEAR answers,
stays in the fatal state with its `cause` and returns no packet. Each step accepts one arrival, so `n` steps accept the first
`n`; what stands behind them does not matter. -/
def Obligations.NoPacketWhileFatal : Prop :=
  ∀ (n : Nat) (s : State), s.fatal = true → s.rsp.bind Response.packet? = none →
    (∀ a ∈ s.port.take n, a.clears = false) →
    ∃ t, Sys2Proof.core.run n s = .next t ∧ t.fatal = true ∧ t.cause = s.cause ∧
      t.rsp.bind Response.packet? = none

/-- R103, R66, R117: a reserved command word answers ILLEGAL, whatever its operand fields hold, and changes no state. -/
def Obligations.ReservedWordsAnswerIllegal : Prop :=
  ∀ (w : Transaction) (rest : List Arrival) (s : State), s.port = .command w :: rest →
    (w.word.toNat % 8 = 0 ∨ w.word.toNat % 8 = 5 ∨ w.word.toNat % 8 = 6 ∨ w.word.toNat / 8 ≠ 0) →
    step s = .next { s with port := rest, rsp := some .illegal, tx := [] }

/-! ## Invariants -/

/-- R20: every instruction and every step keeps the invariants (i), (ii) and (iii). -/
def Obligations.LegalStatesAreKept : Prop :=
  (∀ (i : Instr) (s t : State), s.Legal → exec i s = .next t → t.Legal) ∧
    ∀ s t : State, s.Legal → step s = .next t → t.Legal

/-- R30: the reset values; the reset state is a legal one, for every `BUF_DEPTH` that R6 admits, and one whose fault
(there is none) is explained. The opaque `BUF_DEPTH` is log 3. -/
def Obligations.ResetStateIsLegal : Prop :=
  State.reset.buf = [] ∧ State.reset.fatal = false ∧ State.reset.cause = 0x00 ∧ State.reset.Legal ∧
    State.reset.faultExplained = true ∧
    ∀ d : Depth, d.wf = true → (State.resetAt d).Legal

/-- After R106 and R111: in every step, whatever arrives, the fatal flag stays explained: parsing the queue again finds
the condition that `cause` records. -/
def Obligations.FaultStaysExplained : Prop :=
  ∀ s t : State, s.faultExplained = true → step s = .next t → t.faultExplained = true

/-- The frame of every instruction (R17, R33, R41): what it does to the queue and the fault fields, and that it leaves
the implementation parameter and the inputs alone. -/
def Obligations.EachInstructionChangesOnlyItsOwn : Prop :=
  ∀ (i : Instr) (s t : State), exec i s = .next t →
    t.depth = s.depth ∧ t.port = s.port ∧
      (match i with
        | .push chunk =>
          (∃ k, t.rsp = some (.okAccepted k) ∧ t.buf = s.buf ++ chunk.take k) ∧
            t.fatal = s.fatal ∧ t.cause = s.cause ∧ t.tx = []
        | .encode _ _ _ => t.buf = s.buf ∧ t.fatal = s.fatal ∧ t.cause = s.cause
        | .query => t.buf = s.buf ∧ t.fatal = s.fatal ∧ t.cause = s.cause ∧ t.tx = []
        | .clear => t.buf = [] ∧ t.fatal = false ∧ t.cause = 0x00 ∧ t.tx = []
        | _ =>
          t.tx = [] ∧
            ((∃ p n, t.rsp = some (.okPacket p n) ∧ n ≤ s.buf.length ∧ t.buf = s.buf.drop n ∧
                t.fatal = s.fatal ∧ t.cause = s.cause) ∨
              (t.rsp.bind Response.packet? = none ∧ t.buf = s.buf ∧
                ((t.rsp = some .short ∨ t.rsp = some .incomplete) ∧ t.fatal = s.fatal ∧ t.cause = s.cause ∨
                  t.rsp = some .badMagic ∧ t.fatal = true ∧
                    t.cause = (if s.fatal = true then s.cause else 0x03) ∨
                  t.rsp = some .oversize ∧ t.fatal = true ∧
                    t.cause = (if s.fatal = true then s.cause else 0x04)))))

/-! ## Steps (spec/20_memory.md R38 to R40, spec/70_reset_and_hazards.md) -/

/-- A step runs the decoded command: where the oldest arrival's transaction decodes to `i`, the step is `exec i` with
the arrival removed; and where a reset arrived with it, the reset is left for the next step (log 13). -/
def Obligations.StepRunsTheDecodedCommand : Prop :=
  ∀ (t : Transaction) (i : Instr) (rest : List Arrival) (s : State), decode (.command t) = .ok i →
    (s.port = .command t :: rest → step s = exec i { s with port := rest }) ∧
      (s.port = .commandWithReset t :: rest → step s = exec i { s with port := .reset :: rest })

/-- A step runs the decoded header form: where the oldest arrival is TAKE's word and the queue's head byte is `h`, the
step is `exec` of the header form of `h`, with the arrival removed (log 4); operand fields beside TAKE's word are
ignored (log 20). -/
def Obligations.StepRunsTheHeaderForm : Prop :=
  ∀ (t : Transaction) (h : Byte) (i : Instr) (b : Bytes) (rest : List Arrival) (s : State), t.word = 0x02 →
    s.port = .command t :: rest → s.buf = h :: b → decode (.header h) = .ok i →
    step s = exec i { s with port := rest }

/-- After R126: a reset takes effect between commands; arriving together with a command it follows the completed
command, which leaves the fatal state by itself only if it is CLEAR; it drives no response and emits nothing. That the
two are two steps is the model's choice (log 13). -/
def Obligations.ResetTakesEffectBetweenCommands : Prop :=
  (∀ (t : Transaction) (rest : List Arrival) (s : State),
    step { s with port := .commandWithReset t :: rest } = step { s with port := .command t :: .reset :: rest }) ∧
    (∀ (t : Transaction) (rest : List Arrival) (s : State), s.port = .commandWithReset t :: rest →
      ∃ u v, step s = .next u ∧ u.rsp.isSome = true ∧ step u = .next v ∧
        v = { s with buf := [], fatal := false, cause := 0x00, port := rest, rsp := none, tx := [] }) ∧
    (∀ (t : Transaction) (rest : List Arrival) (s u : State), s.port = .commandWithReset t :: rest → t.word ≠ 0x07 →
      s.fatal = true → step s = .next u → u.fatal = true) ∧
    ∀ (rest : List Arrival) (s : State), s.port = .reset :: rest →
      step s = .next { s with buf := [], fatal := false, cause := 0x00, port := rest, rsp := none, tx := [] }

/-- R124, R136: every command completes in one step, in every state, and so does every step of the block, whatever
stands at its inputs. -/
def Obligations.EveryCommandCompletes : Prop :=
  (∀ (i : Instr) (s : State), ∃ t, exec i s = .next t ∧ t.rsp.isSome = true) ∧
    ∀ (n : Nat) (s : State), ∃ t, Sys2Proof.core.run n s = .next t

/-! ## Packet type names (spec/00_scope.md R9, R15) -/

/-- R9, R15, R58: under any injective `TYPE_CODE` the host's naming gives each of the sixteen names its own code back,
and every other 5-bit type is unknown. -/
def Obligations.TypeNamesClassify : Prop :=
  ∀ tc : TypeCode, packetTypes.length = 16 ∧ (∀ n : PacketType, classify tc (tc.code n) = some n) ∧
    ∀ t : BitVec 5, classify tc t = none ↔ ∀ n : PacketType, tc.code n ≠ t

/-! ## Stray operand fields (log 20) -/

/-- R64 with log 20: a command word selects its command whatever the operand fields that the command does not have hold.
R65 says that they are ignored of reserved words only; beside the five commands it is the model's choice (log 20). -/
def Obligations.StrayOperandFieldsAreIgnored : Prop :=
  ∀ t : Transaction,
    (t.word = 0x01 → decode (.command t) = .ok (.push t.chunk)) ∧
      (t.word = 0x02 → decode (.command t) = .ok .take) ∧
      (t.word = 0x03 → decode (.command t) = .ok (.encode t.type t.rid t.payload)) ∧
      (t.word = 0x04 → decode (.command t) = .ok .query) ∧
      (t.word = 0x07 → decode (.command t) = .ok .clear)
end

