-- ==== Sys2Proof/Laws/Codec.lean ====
section
/-! SUPPORT. Lemmas about the codec's helpers: little-endian bytes, the length-field widths, slices, and all that
`ParseHeader` can return. -/

namespace Sys2Proof

/-! ## Little-endian bytes (R12) -/

@[simp] theorem bytesLE_length (n k : Nat) : (bytesLE n k).length = k := by
  induction k generalizing n with
  | zero => rfl
  | succ k ih => simp [bytesLE, ih]

/-- R12's own formula for byte `i` of `LE(n, k)`. -/
theorem bytesLE_getElem (n k i : Nat) (h : i < (bytesLE n k).length) :
    (bytesLE n k)[i] = BitVec.ofNat 8 (n / 256 ^ i) := by
  induction k generalizing n i with
  | zero => simp at h
  | succ k ih =>
    cases i with
    | zero => simp [bytesLE]
    | succ i =>
      simp only [bytesLE, List.getElem_cons_succ]
      rw [ih]
      rw [Nat.div_div_eq_div_mul, Nat.pow_succ, Nat.mul_comm]

theorem fromLE_lt (b : Bytes) : fromLE b < 256 ^ b.length := by
  induction b with
  | nil => simp [fromLE]
  | cons x xs ih =>
    have hx := x.isLt
    simp only [fromLE, List.length_cons, Nat.pow_succ]
    omega

/-- `fromLE` is the inverse of `LE` (R12) on the numbers that `k` bytes hold. -/
theorem fromLE_bytesLE (n k : Nat) (h : n < 256 ^ k) : fromLE (bytesLE n k) = n := by
  induction k generalizing n with
  | zero => simp [bytesLE, fromLE]; simp at h; exact h.symm
  | succ k ih =>
    have hd : n / 256 < 256 ^ k := by
      rw [Nat.pow_succ] at h
      exact Nat.div_lt_of_lt_mul (by omega)
    simp only [bytesLE, fromLE, ih _ hd, BitVec.toNat_ofNat]
    omega

/-- `LE` is the inverse of `fromLE` (R12). -/
theorem bytesLE_fromLE (b : Bytes) : bytesLE (fromLE b) b.length = b := by
  induction b with
  | nil => rfl
  | cons x xs ih =>
    have hx := x.isLt
    have hd : (x.toNat + 256 * fromLE xs) / 256 = fromLE xs := by omega
    have hm : BitVec.ofNat 8 (x.toNat + 256 * fromLE xs) = x := by
      apply BitVec.eq_of_toNat_eq
      simp only [BitVec.toNat_ofNat]
      omega
    simp only [fromLE, List.length_cons, bytesLE, hd, hm, ih]

/-! ## Length-field widths (R51, R52) -/

@[simp] theorem lfOfLfl_lflOfLf (w : LF) : lfOfLfl (lflOfLf w) = w := by cases w <;> rfl

@[simp] theorem lflOfLf_lfOfLfl (lfl : BitVec 2) : lflOfLf (lfOfLfl lfl) = lfl := by
  revert lfl; decide

theorem lf_bytes_injective (a b : LF) (h : a.bytes = b.bytes) : a = b := by
  cases a <;> cases b <;> simp_all [LF.bytes]

end Sys2Proof

namespace Sys2Proof.Machine

/-! ## Slices (R13) -/

theorem slice_length (b : Bytes) (i n : Nat) (h : i + n ≤ b.length) : (slice b i n).length = n := by
  simp [slice]; omega

/-- A slice that lies inside `b` is the same slice of `b ++ x`. -/
theorem slice_append (b x : Bytes) (i n : Nat) (h : i + n ≤ b.length) : slice (b ++ x) i n = slice b i n := by
  simp only [slice]
  rw [List.drop_append_of_le_length (by omega), List.take_append_of_le_length (by simp; omega)]

/-! ## The operand fields of a header (R83, R84) -/

/-- All that reading the request id can give. -/
theorem readRid_eq_some (f : Bool) (b : Bytes) (r : Option Byte) :
    readRid f b = some r ↔ (f = false ∧ r = none) ∨ (f = true ∧ ∃ x, b[5]? = some x ∧ r = some x) := by
  cases f <;> simp [readRid, eq_comm]

/-- All that reading the length field can give. -/
theorem readLength_eq_some (f : Bool) (w : LF) (b : Bytes) (n : Nat) :
    readLength f w b = some n ↔
      (w = .w0 ∧ n = 0) ∨
        (w ≠ .w0 ∧ 5 + f.toNat + w.bytes ≤ b.length ∧ n = fromLE (slice b (5 + f.toNat) w.bytes)) := by
  have hw : w.bytes = 0 ↔ w = .w0 := by cases w <;> simp [LF.bytes]
  unfold readLength
  split
  · simp_all [eq_comm]
  · split
    · simp_all
    · constructor
      · intro h
        exact .inr ⟨by simp_all, by omega, (Option.some.inj h).symm⟩
      · rintro (⟨h, -⟩ | ⟨-, -, rfl⟩)
        · simp_all
        · rfl

/-! ## All that ParseHeader can return (R85) -/

/-- SHORT is exactly fewer than 5 bytes. -/
theorem parseForm_eq_short (lfl : BitVec 2) (f : Bool) (t : BitVec 5) (b : Bytes) :
    parseForm lfl f t b = .short ↔ b.length < 5 := by
  unfold parseForm
  split
  · simp_all
  · split
    · simp_all
    · split
      · simp_all
      · split <;> simp_all

/-- BAD_MAGIC is exactly 5 bytes or more with a wrong magic. -/
theorem parseForm_eq_badMagic (lfl : BitVec 2) (f : Bool) (t : BitVec 5) (b : Bytes) :
    parseForm lfl f t b = .badMagic ↔ 5 ≤ b.length ∧ magicOK b = false := by
  unfold parseForm
  split
  · simp_all
  · split
    · simp_all
    · split
      · simp_all
      · split <;> simp_all

/-- A header is read exactly when 5 bytes with the magic are there and both operand fields can be read. -/
theorem parseForm_eq_header (lfl : BitVec 2) (f : Bool) (t : BitVec 5) (b : Bytes) (h : Header) :
    parseForm lfl f t b = .header h ↔
      5 ≤ b.length ∧ magicOK b = true ∧
        ∃ rid plen, readRid f b = some rid ∧ readLength f (lfOfLfl lfl) b = some plen ∧
          h = ⟨lfl, f, t, rid, lfOfLfl lfl, plen, 5 + f.toNat + (lfOfLfl lfl).bytes⟩ := by
  unfold parseForm
  split
  · simp_all
  · split
    · simp_all
    · split
      · simp_all
      · split
        · simp_all
        · rename_i h5 hm _ rid hr _ plen hl
          constructor
          · intro e
            exact ⟨by omega, by simpa using hm, rid, plen, hr, hl, (HeaderResult.header.inj e).symm⟩
          · rintro ⟨-, -, rid', plen', hr', hl', rfl⟩
            rw [hr] at hr'
            rw [hl] at hl'
            cases hr'
            cases hl'
            rfl

/-- On a queue that is not empty, `ParseHeader` is the parser of the header byte's form. -/
theorem parseHeader_cons (h : Byte) (rest : Bytes) :
    parseHeader (h :: rest) =
      parseForm (hdrFields h).1 (hdrFields h).2.1 (hdrFields h).2.2 (h :: rest) := rfl

theorem parseHeader_nil : parseHeader [] = .short := rfl

/-- SHORT is exactly fewer than 5 bytes, at the head of the queue. -/
theorem parseHeader_eq_short (b : Bytes) : parseHeader b = .short ↔ b.length < 5 := by
  cases b with
  | nil => simp [parseHeader_nil]
  | cons h t => rw [parseHeader_cons, parseForm_eq_short]

/-- BAD_MAGIC is exactly 5 bytes or more with a wrong magic, at the head of the queue. -/
theorem parseHeader_eq_badMagic (b : Bytes) : parseHeader b = .badMagic ↔ 5 ≤ b.length ∧ magicOK b = false := by
  cases b with
  | nil => simp [parseHeader_nil]
  | cons h t => rw [parseHeader_cons, parseForm_eq_badMagic]

/-! ## All that Decode can return (R88) -/

/-- A frame is read exactly when its header is and all its bytes are there. -/
theorem decodeFrame_eq_frame (b : Bytes) (p : Packet) (n : Nat) :
    decodeFrame b = .frame p n ↔
      ∃ h, parseHeader b = .header h ∧ h.total ≤ b.length ∧ p = h.packet b ∧ n = h.total := by
  simp only [decodeFrame]
  cases parseHeader b with
  | header h =>
    by_cases hl : b.length < h.total
    · simp [decodeAfter, hl]
    · simp [decodeAfter, hl, Nat.le_of_not_lt hl, eq_comm]
  | _ => simp [decodeAfter]

/-- `Decode` finds BAD_MAGIC exactly when `ParseHeader` does. -/
theorem decodeFrame_eq_badMagic (b : Bytes) : decodeFrame b = .badMagic ↔ parseHeader b = .badMagic := by
  simp only [decodeFrame]
  cases parseHeader b with
  | header h =>
    by_cases hl : b.length < h.total <;> simp [decodeAfter, hl]
  | _ => simp [decodeAfter]

/-! ## The layout of a frame (R47) -/

/-- The slice in the middle of three parts is the middle part. -/
theorem slice_middle (a b c : Bytes) (n : Nat) (h : a.length = n) : slice (a ++ (b ++ c)) n b.length = b := by
  subst h
  simp [slice]

@[simp] theorem ridBytes_length (r : Option Byte) : (ridBytes r).length = r.isSome.toNat := by cases r <;> rfl

/-- Parsing bytes laid out as R47 has them reads the fields back. -/
theorem parseForm_layout (lf : LF) (rid : Option Byte) (t : BitVec 5) (h₀ : Byte) (lb rest : Bytes)
    (hl : lb.length = lf.bytes) :
    parseForm (lflOfLf lf) rid.isSome t (h₀ :: (magic ++ (ridBytes rid ++ (lb ++ rest)))) =
      .header ⟨lflOfLf lf, rid.isSome, t, rid, lf, fromLE lb, 5 + rid.isSome.toNat + lf.bytes⟩ := by
  rw [parseForm_eq_header]
  refine ⟨by simp [magic], by simp [magicOK, slice, magic], rid, fromLE lb, ?_, ?_, by simp⟩
  · rw [readRid_eq_some]
    cases rid <;> simp [magic, ridBytes]
  · rw [readLength_eq_some, lfOfLfl_lflOfLf]
    by_cases hw : lf = .w0
    · subst hw
      have : lb = [] := List.length_eq_zero_iff.1 hl
      subst this
      exact .inl ⟨rfl, rfl⟩
    · refine .inr ⟨hw, ?_, ?_⟩
      · cases rid <;> simp [magic, ridBytes] <;> omega
      · congr 1
        cases rid <;> simp [magic, ridBytes, slice, ← hl]

end Sys2Proof.Machine
end

