-- ==== Sys2Proof/Laws/State.lean ====
section
/-! SUPPORT. What each update of the state leaves in each field. Each lemma is true by definition, and later proofs cite
these instead of unfolding a record update. -/

namespace Sys2Proof.Machine

/-! ## `bufAppend` -/

@[simp] theorem bufAppend_buf (bs : Bytes) (s : State) : (bufAppend bs s).buf = s.buf ++ bs := rfl
@[simp] theorem bufAppend_fatal (bs : Bytes) (s : State) : (bufAppend bs s).fatal = s.fatal := rfl
@[simp] theorem bufAppend_cause (bs : Bytes) (s : State) : (bufAppend bs s).cause = s.cause := rfl
@[simp] theorem bufAppend_depth (bs : Bytes) (s : State) : (bufAppend bs s).depth = s.depth := rfl
@[simp] theorem bufAppend_port (bs : Bytes) (s : State) : (bufAppend bs s).port = s.port := rfl
@[simp] theorem bufAppend_rsp (bs : Bytes) (s : State) : (bufAppend bs s).rsp = s.rsp := rfl
@[simp] theorem bufAppend_tx (bs : Bytes) (s : State) : (bufAppend bs s).tx = s.tx := rfl

/-! ## `bufDrop` -/

@[simp] theorem bufDrop_buf (n : Nat) (s : State) : (bufDrop n s).buf = s.buf.drop n := rfl
@[simp] theorem bufDrop_fatal (n : Nat) (s : State) : (bufDrop n s).fatal = s.fatal := rfl
@[simp] theorem bufDrop_cause (n : Nat) (s : State) : (bufDrop n s).cause = s.cause := rfl
@[simp] theorem bufDrop_depth (n : Nat) (s : State) : (bufDrop n s).depth = s.depth := rfl
@[simp] theorem bufDrop_port (n : Nat) (s : State) : (bufDrop n s).port = s.port := rfl
@[simp] theorem bufDrop_rsp (n : Nat) (s : State) : (bufDrop n s).rsp = s.rsp := rfl
@[simp] theorem bufDrop_tx (n : Nat) (s : State) : (bufDrop n s).tx = s.tx := rfl

/-! ## `answerWith` -/

@[simp] theorem answerWith_buf (r : Response) (out : Bytes) (s : State) : (answerWith r out s).buf = s.buf := rfl
@[simp] theorem answerWith_fatal (r : Response) (out : Bytes) (s : State) : (answerWith r out s).fatal = s.fatal := rfl
@[simp] theorem answerWith_cause (r : Response) (out : Bytes) (s : State) : (answerWith r out s).cause = s.cause := rfl
@[simp] theorem answerWith_depth (r : Response) (out : Bytes) (s : State) : (answerWith r out s).depth = s.depth := rfl
@[simp] theorem answerWith_port (r : Response) (out : Bytes) (s : State) : (answerWith r out s).port = s.port := rfl
@[simp] theorem answerWith_rsp (r : Response) (out : Bytes) (s : State) : (answerWith r out s).rsp = some r := rfl
@[simp] theorem answerWith_tx (r : Response) (out : Bytes) (s : State) : (answerWith r out s).tx = out := rfl

/-! ## `answer` -/

@[simp] theorem answer_buf (r : Response) (s : State) : (answer r s).buf = s.buf := rfl
@[simp] theorem answer_fatal (r : Response) (s : State) : (answer r s).fatal = s.fatal := rfl
@[simp] theorem answer_cause (r : Response) (s : State) : (answer r s).cause = s.cause := rfl
@[simp] theorem answer_depth (r : Response) (s : State) : (answer r s).depth = s.depth := rfl
@[simp] theorem answer_port (r : Response) (s : State) : (answer r s).port = s.port := rfl
@[simp] theorem answer_rsp (r : Response) (s : State) : (answer r s).rsp = some r := rfl
@[simp] theorem answer_tx (r : Response) (s : State) : (answer r s).tx = [] := rfl

/-! ## `silent` -/

@[simp] theorem silent_buf (s : State) : (silent s).buf = s.buf := rfl
@[simp] theorem silent_fatal (s : State) : (silent s).fatal = s.fatal := rfl
@[simp] theorem silent_cause (s : State) : (silent s).cause = s.cause := rfl
@[simp] theorem silent_depth (s : State) : (silent s).depth = s.depth := rfl
@[simp] theorem silent_port (s : State) : (silent s).port = s.port := rfl
@[simp] theorem silent_rsp (s : State) : (silent s).rsp = none := rfl
@[simp] theorem silent_tx (s : State) : (silent s).tx = [] := rfl

/-! ## `enterFatal` -/

@[simp] theorem enterFatal_buf (c : FatalCondition) (s : State) : (enterFatal c s).buf = s.buf := rfl
@[simp] theorem enterFatal_fatal (c : FatalCondition) (s : State) : (enterFatal c s).fatal = true := rfl
@[simp] theorem enterFatal_cause (c : FatalCondition) (s : State) : (enterFatal c s).cause = c.code := rfl
@[simp] theorem enterFatal_depth (c : FatalCondition) (s : State) : (enterFatal c s).depth = s.depth := rfl
@[simp] theorem enterFatal_port (c : FatalCondition) (s : State) : (enterFatal c s).port = s.port := rfl
@[simp] theorem enterFatal_rsp (c : FatalCondition) (s : State) : (enterFatal c s).rsp = some c.response := rfl
@[simp] theorem enterFatal_tx (c : FatalCondition) (s : State) : (enterFatal c s).tx = [] := rfl

/-! ## `clearState` -/

@[simp] theorem clearState_buf (s : State) : (clearState s).buf = [] := rfl
@[simp] theorem clearState_fatal (s : State) : (clearState s).fatal = false := rfl
@[simp] theorem clearState_cause (s : State) : (clearState s).cause = causeNone := rfl
@[simp] theorem clearState_depth (s : State) : (clearState s).depth = s.depth := rfl
@[simp] theorem clearState_port (s : State) : (clearState s).port = s.port := rfl
@[simp] theorem clearState_rsp (s : State) : (clearState s).rsp = s.rsp := rfl
@[simp] theorem clearState_tx (s : State) : (clearState s).tx = s.tx := rfl

/-! ## `resetByPin` -/

@[simp] theorem resetByPin_buf (s : State) : (resetByPin s).buf = [] := rfl
@[simp] theorem resetByPin_fatal (s : State) : (resetByPin s).fatal = false := rfl
@[simp] theorem resetByPin_cause (s : State) : (resetByPin s).cause = causeNone := rfl
@[simp] theorem resetByPin_depth (s : State) : (resetByPin s).depth = s.depth := rfl
@[simp] theorem resetByPin_port (s : State) : (resetByPin s).port = s.port := rfl
@[simp] theorem resetByPin_rsp (s : State) : (resetByPin s).rsp = none := rfl
@[simp] theorem resetByPin_tx (s : State) : (resetByPin s).tx = [] := rfl

/-! ## `answerReserved` -/

@[simp] theorem answerReserved_buf (s : State) : (answerReserved s).buf = s.buf := rfl
@[simp] theorem answerReserved_fatal (s : State) : (answerReserved s).fatal = s.fatal := rfl
@[simp] theorem answerReserved_cause (s : State) : (answerReserved s).cause = s.cause := rfl
@[simp] theorem answerReserved_depth (s : State) : (answerReserved s).depth = s.depth := rfl
@[simp] theorem answerReserved_port (s : State) : (answerReserved s).port = s.port := rfl
@[simp] theorem answerReserved_rsp (s : State) : (answerReserved s).rsp = some .illegal := rfl
@[simp] theorem answerReserved_tx (s : State) : (answerReserved s).tx = [] := rfl

/-! ## The reset state -/

@[simp] theorem resetAt_buf (d : Depth) : (State.resetAt d).buf = [] := rfl
@[simp] theorem resetAt_fatal (d : Depth) : (State.resetAt d).fatal = false := rfl
@[simp] theorem resetAt_cause (d : Depth) : (State.resetAt d).cause = 0x00 := rfl
@[simp] theorem resetAt_depth (d : Depth) : (State.resetAt d).depth = d := rfl
@[simp] theorem resetAt_port (d : Depth) : (State.resetAt d).port = [] := rfl
@[simp] theorem resetAt_rsp (d : Depth) : (State.resetAt d).rsp = none := rfl
@[simp] theorem resetAt_tx (d : Depth) : (State.resetAt d).tx = [] := rfl

/-- The reset state is the reset state of this implementation's `BUF_DEPTH`. -/
theorem reset_eq_resetAt : State.reset = State.resetAt Config.bufDepth := rfl

end Sys2Proof.Machine
end

