-- ==== Sys2Proof/Laws/Ops.lean ====
section
/-! SUPPORT. One lemma for each shared operation that says once all it can do, and the equation of each meaning
and of each kind of step. Later proofs cite these instead of unfolding the operations. -/

namespace Sys2Proof.Machine

/-! ## Accepting a chunk -/

theorem acceptCount_inf (level len : Nat) : acceptCount .inf level len = len := rfl

theorem acceptCount_finite (d level len : Nat) : acceptCount (.finite d) level len = min len (d - level) := rfl

theorem acceptCount_le (depth : Depth) (level len : Nat) : acceptCount depth level len ≤ len := by
  cases depth with
  | inf => exact Nat.le_refl _
  | finite d => exact Nat.min_le_left _ _

/-! ## The capacity check -/

theorem exceedsDepth_inf (n : Nat) : exceedsDepth n .inf = false := rfl

theorem exceedsDepth_finite (n d : Nat) : exceedsDepth n (.finite d) = true ↔ d < n := by
  simp [exceedsDepth]

/-! ## TAKE -/

/-- All that `deliver` can do. -/
theorem deliver_cases (d : DecodeResult) (s : State) :
    (d = .short ∧ deliver d s = answer .short s) ∨
      (d = .incomplete ∧ deliver d s = answer .incomplete s) ∨
      (d = .badMagic ∧ deliver d s = answer .badMagic s) ∨
      ∃ p n, d = .frame p n ∧ deliver d s = answer (.okPacket p n) (bufDrop n s) := by
  cases d with
  | short => exact .inl ⟨rfl, rfl⟩
  | incomplete => exact .inr (.inl ⟨rfl, rfl⟩)
  | badMagic => exact .inr (.inr (.inl ⟨rfl, rfl⟩))
  | frame p n => exact .inr (.inr (.inr ⟨p, n, rfl, rfl⟩))

/-- All that TAKE can do, whichever parser reads the head of the queue. -/
theorem takeWith_cases (parse : Bytes → HeaderResult) (s : State) :
    (s.fatal = true ∧ takeWith parse s = answer (stickyResponse s.cause) s) ∨
      (s.fatal = false ∧
        ((parse s.buf = .short ∧ takeWith parse s = answer .short s) ∨
          (parse s.buf = .badMagic ∧ takeWith parse s = enterFatal .badMagic s) ∨
          (parse s.buf = .incomplete ∧ takeWith parse s = answer .incomplete s) ∨
          ∃ h, parse s.buf = .header h ∧
            ((exceedsDepth h.total s.depth = true ∧ takeWith parse s = enterFatal .oversize s) ∨
              (exceedsDepth h.total s.depth = false ∧ s.buf.length < h.total ∧
                takeWith parse s = answer .incomplete s) ∨
              (exceedsDepth h.total s.depth = false ∧ h.total ≤ s.buf.length ∧
                takeWith parse s = answer (.okPacket (h.packet s.buf) h.total) (bufDrop h.total s))))) := by
  cases hf : s.fatal with
  | true => exact .inl ⟨rfl, by simp [takeWith, hf]⟩
  | false =>
    refine .inr ⟨rfl, ?_⟩
    cases hp : parse s.buf with
    | short => exact .inl ⟨rfl, by simp [takeWith, hf, hp, takeParsed, decodeAfter, deliver]⟩
    | badMagic => exact .inr (.inl ⟨rfl, by simp [takeWith, hf, hp, takeParsed]⟩)
    | incomplete => exact .inr (.inr (.inl ⟨rfl, by simp [takeWith, hf, hp, takeParsed, decodeAfter, deliver]⟩))
    | header h =>
      refine .inr (.inr (.inr ⟨h, rfl, ?_⟩))
      cases he : exceedsDepth h.total s.depth with
      | true => exact .inl ⟨rfl, by simp [takeWith, hf, hp, takeParsed, he]⟩
      | false =>
        by_cases hl : s.buf.length < h.total
        · exact .inr (.inl ⟨rfl, hl, by simp [takeWith, hf, hp, takeParsed, he, decodeAfter, deliver, hl]⟩)
        · exact .inr (.inr ⟨rfl, Nat.le_of_not_lt hl,
            by simp [takeWith, hf, hp, takeParsed, he, decodeAfter, deliver, hl]⟩)

/-- TAKE depends on the parser only through what it reads from the queue. -/
theorem takeWith_congr (f g : Bytes → HeaderResult) (s : State) (h : f s.buf = g s.buf) :
    takeWith f s = takeWith g s := by
  simp [takeWith, h]

/-! ## Inputs and steps -/

/-- All that `accept` can find. -/
theorem accept_cases (s : State) :
    (s.port = [] ∧ accept s = .nothing) ∨
      (∃ rest, s.port = .reset :: rest ∧ accept s = .reset { s with port := rest }) ∨
      (∃ t rest, s.port = .command t :: rest ∧ accept s = .command t { s with port := rest }) ∨
      ∃ t rest, s.port = .commandWithReset t :: rest ∧
        accept s = .command t { s with port := .reset :: rest } := by
  cases hp : s.port with
  | nil => exact .inl ⟨rfl, by simp [accept, hp]⟩
  | cons a rest =>
    cases a with
    | reset => exact .inr (.inl ⟨rest, rfl, by simp [accept, hp]⟩)
    | command t => exact .inr (.inr (.inl ⟨t, rest, rfl, by simp [accept, hp]⟩))
    | commandWithReset t => exact .inr (.inr (.inr ⟨t, rest, rfl, by simp [accept, hp]⟩))

/-- A transaction runs the command it decodes to. -/
theorem runTransaction_of_decode (t : Transaction) (s : State) (i : Instr) (h : decode (.command t) = .ok i) :
    runTransaction t s = exec i s := by
  simp [runTransaction, h]

/-- A transaction that decodes to no command is answered ILLEGAL. -/
theorem runTransaction_of_reserved (t : Transaction) (s : State) (e : DecodeError)
    (h : decode (.command t) = .error e) : runTransaction t s = .next (answerReserved s) := by
  cases e with
  | reserved w => simp [runTransaction, h]

/-- All that a transaction can do: one of the five commands, or the answer ILLEGAL. -/
theorem runTransaction_cases (t : Transaction) (s : State) :
    (∃ i, decode (.command t) = .ok i ∧ runTransaction t s = exec i s) ∨
      ∃ e, decode (.command t) = .error e ∧ runTransaction t s = .next (answerReserved s) := by
  cases h : decode (.command t) with
  | ok i => exact .inl ⟨i, rfl, runTransaction_of_decode t s i h⟩
  | error e => exact .inr ⟨e, rfl, runTransaction_of_reserved t s e h⟩

/-- All that a step can do. -/
theorem step_cases (s : State) :
    (s.port = [] ∧ step s = .next (silent s)) ∨
      (∃ rest, s.port = .reset :: rest ∧ step s = .next (resetByPin { s with port := rest })) ∨
      (∃ t rest, s.port = .command t :: rest ∧ step s = runTransaction t { s with port := rest }) ∨
      ∃ t rest, s.port = .commandWithReset t :: rest ∧
        step s = runTransaction t { s with port := .reset :: rest } := by
  rcases accept_cases s with ⟨hp, ha⟩ | ⟨rest, hp, ha⟩ | ⟨t, rest, hp, ha⟩ | ⟨t, rest, hp, ha⟩
  · exact .inl ⟨hp, by simp [step, ha]⟩
  · exact .inr (.inl ⟨rest, hp, by simp [step, ha]⟩)
  · exact .inr (.inr (.inl ⟨t, rest, hp, by simp [step, ha]⟩))
  · exact .inr (.inr (.inr ⟨t, rest, hp, by simp [step, ha]⟩))

/-! ## The meanings -/

/-- The meaning of every header form is TAKE with that form's parser (R62, R85). -/
theorem exec_headerForm (lf : LF) (f : Bool) (t : BitVec 5) (s : State) :
    exec (headerForm lf f t) s = .next (takeForm (lflOfLf lf) f t s) := by
  cases lf <;> cases f <;> rfl

theorem exec_take (s : State) : exec .take s = .next (takeWith parseHeader s) := rfl

theorem exec_push (chunk : Bytes) (s : State) :
    exec (.push chunk) s =
      .next (answer (.okAccepted (acceptCount s.depth s.buf.length chunk.length))
        (bufAppend (chunk.take (acceptCount s.depth s.buf.length chunk.length)) s)) := rfl

theorem exec_query (s : State) : exec .query s = .next (answer (statusView s) s) := rfl

theorem exec_clear (s : State) : exec .clear s = .next (answer .ok (clearState s)) := rfl

theorem exec_encode (type : Byte) (rid : Option Byte) (payload : Bytes) (s : State) :
    exec (.encode type rid payload) s =
      .next (if payload.length > maxPayload then answer .encodeError s
        else answerWith .ok (encodeFrame type rid payload) s) := rfl

end Sys2Proof.Machine
end

