-- ==== Sys2Proof/Laws/PerInstr.lean ====
section
/-! SUPPORT. Statements for all instructions, one lemma for each constructor. -/

namespace Sys2Proof.Laws.EncodesToRow

/-- The columns "mask" and "match" of an instruction's row in spec/opcode_table.json. -/
def row : Instr → Byte × Byte
  | .push _ => (0xFF, 0x01)
  | .take => (0xFF, 0x02)
  | .encode _ _ _ => (0xFF, 0x03)
  | .query => (0xFF, 0x04)
  | .clear => (0xFF, 0x07)
  | .hdrL0 _ => (0xE0, 0x00)
  | .hdrL0R _ => (0xE0, 0x20)
  | .hdrL1 _ => (0xE0, 0x40)
  | .hdrL1R _ => (0xE0, 0x60)
  | .hdrL2 _ => (0xE0, 0x80)
  | .hdrL2R _ => (0xE0, 0xA0)
  | .hdrL4 _ => (0xE0, 0xC0)
  | .hdrL4R _ => (0xE0, 0xE0)

/-- The word of an encoded instruction matches its own row of the opcode table. -/
def Statement (i : Instr) : Prop := (encode i).byte &&& (row i).1 = (row i).2

theorem push (chunk : Bytes) : Statement (.push chunk) := by
  simp only [Statement, Sys2Proof.encode, row, Encoded.byte]
  decide
theorem take : Statement .take := by unfold Statement; decide
theorem encode (type : Byte) (rid : Option Byte) (payload : Bytes) : Statement (.encode type rid payload) := by
  simp only [Statement, Sys2Proof.encode, row, Encoded.byte]
  decide
theorem query : Statement .query := by unfold Statement; decide
theorem clear : Statement .clear := by unfold Statement; decide
theorem hdrL0 (t : BitVec 5) : Statement (.hdrL0 t) := by unfold Statement; revert t; decide
theorem hdrL0R (t : BitVec 5) : Statement (.hdrL0R t) := by unfold Statement; revert t; decide
theorem hdrL1 (t : BitVec 5) : Statement (.hdrL1 t) := by unfold Statement; revert t; decide
theorem hdrL1R (t : BitVec 5) : Statement (.hdrL1R t) := by unfold Statement; revert t; decide
theorem hdrL2 (t : BitVec 5) : Statement (.hdrL2 t) := by unfold Statement; revert t; decide
theorem hdrL2R (t : BitVec 5) : Statement (.hdrL2R t) := by unfold Statement; revert t; decide
theorem hdrL4 (t : BitVec 5) : Statement (.hdrL4 t) := by unfold Statement; revert t; decide
theorem hdrL4R (t : BitVec 5) : Statement (.hdrL4R t) := by unfold Statement; revert t; decide

end Sys2Proof.Laws.EncodesToRow
end

