-- ==== Sys2Proof/Laws/Safety.lean ====
section
/-! SUPPORT. Small lemmas about the terms of Safety: the capacity check in its two spellings, and the header byte in
numbers beside the decoder's fields. -/

namespace Sys2Proof.Machine

theorem withinDepth_inf (n : Nat) : withinDepth n .inf = true := rfl

theorem withinDepth_finite (n d : Nat) : withinDepth n (.finite d) = true ↔ n ≤ d := decide_eq_true_iff

/-- What exceeds the capacity is what is not within it. -/
theorem exceedsDepth_eq_not_withinDepth (n : Nat) (d : Depth) : exceedsDepth n d = !withinDepth n d := by
  cases d with
  | inf => rfl
  | finite k =>
    by_cases h : n ≤ k
    · simp [exceedsDepth, withinDepth, h]
    · simp [exceedsDepth, withinDepth, h]; omega

/-- A smaller level is within the capacity too. -/
theorem withinDepth_mono (m n : Nat) (d : Depth) (h : withinDepth n d = true) (hmn : m ≤ n) :
    withinDepth m d = true := by
  cases d with
  | inf => rfl
  | finite k => exact decide_eq_true (Nat.le_trans hmn ((withinDepth_finite n k).1 h))

/-- A queue that has room for all of a chunk accepts all of it. -/
theorem acceptCount_of_withinDepth (d : Depth) (level len total : Nat) (h : withinDepth total d = true)
    (hl : level + len ≤ total) : acceptCount d level len = len := by
  cases d with
  | inf => rfl
  | finite k =>
    have := (withinDepth_finite total k).1 h
    show min len (k - level) = len
    omega

theorem flagOf_eq (h : Byte) : flagOf h = (hdrFields h).2.1.toNat := by revert h; decide

theorem widthOf_eq (h : Byte) : widthOf h = (lfOfLfl (hdrFields h).1).bytes := by revert h; decide

theorem typeOf_eq (h : Byte) : typeOf h = (hdrFields h).2.2 := by revert h; decide

end Sys2Proof.Machine
end

