-- ==== Sys2Proof/Tests/Slice0.lean ====
section
/-! SUPPORT. The model's own tests. Expected results come from spec/95_test_vectors.md, by the vector named in each
comment, or are written out from the rule named. Then, for each statement that has hypotheses, a state and operands
that meet them. -/

namespace Sys2Proof.Tests

open Sys2Proof.Machine

/-- A block with the given queue, flag, cause and depth, and nothing at its ports. -/
def block (buf : Bytes) (fatal : Bool) (cause : Byte) (depth : Depth) : State :=
  { State.resetAt depth with buf := buf, fatal := fatal, cause := cause }

/-- A block that runs, with an unbounded queue. -/
def running (buf : Bytes) : State := block buf false 0x00 .inf

/-- The next state of an outcome. -/
def nextOf (o : Host.Outcome State Fault Refusal) : Option State :=
  match o with
  | .next s => some s
  | .fault _ => none
  | .refused _ => none

/-- The response of an outcome's next state. -/
def rspOf (o : Host.Outcome State Fault Refusal) : Option Response := (nextOf o).bind State.rsp

/-- EV3's frame. -/
def ev3 : Bytes := [0x63, 0x58, 0x52, 0x32, 0x4B, 0x7E, 0x03, 0x10, 0x20, 0x30]

/-- EV3's packet. -/
def ev3Packet : Packet := ⟨0x03, some 0x7E, [0x10, 0x20, 0x30]⟩

/-! ## Well-formedness: what each check refuses -/

-- R6: 9 bytes cannot hold the longest header.
theorem test_depth_wf_refuses_9 : (Depth.finite 9).wf = false := by decide
theorem test_depth_wf_accepts_10 : (Depth.finite 10).wf = true := by decide
-- R14: a payload of 2^32 bytes.
theorem test_packet_wf_refuses_2_32_bytes : (Packet.mk 0 none (List.replicate (2 ^ 32) 0)).wf = false := by
  simp only [Packet.wf, List.length_replicate]
  decide
-- R63: 0x81 has op 1 and bit 7 set.
theorem test_word_wf_refuses_reserved_bits : (Transaction.ofWord 0x81).wordWf = false := by decide
-- R64: op 5.
theorem test_word_wf_refuses_reserved_op : (Transaction.ofWord 0x05).wordWf = false := by decide
-- R65: TAKE has no chunk.
theorem test_operands_wf_refuses_stray_chunk :
    Transaction.operandsWf { Transaction.ofWord 0x02 with chunk := [0x01] } = false := by decide
-- R65: PUSH has no request id.
theorem test_operands_wf_refuses_stray_rid :
    Transaction.operandsWf { Transaction.ofWord 0x01 with rid := some 0x00 } = false := by decide

/-! ## Decoding: words written out from R63, R64 and R62 -/

theorem test_decode_push : decode (.command ⟨0b00000_001, [0xAA], 0, none, []⟩) = .ok (.push [0xAA]) := by decide
theorem test_decode_take : decode (.command (Transaction.ofWord 0b00000_010)) = .ok .take := by decide
theorem test_decode_encode :
    decode (.command ⟨0b00000_011, [], 0x25, some 0x01, [0x02]⟩) = .ok (.encode 0x25 (some 0x01) [0x02]) := by decide
theorem test_decode_query : decode (.command (Transaction.ofWord 0b00000_100)) = .ok .query := by decide
theorem test_decode_clear : decode (.command (Transaction.ofWord 0b00000_111)) = .ok .clear := by decide
-- IV1 to IV7.
theorem test_decode_reserved :
    ∀ w ∈ [0x00, 0x05, 0x06, 0x08, 0x81, 0xFF, 0x0A],
      decode (.command (Transaction.ofWord w)) = .error (.reserved w) := by decide
-- HS1 to HS8 and HV5, with the header bytes in binary.
theorem test_decode_hdrL0 : decode (.header 0b00_0_00101) = .ok (.hdrL0 0x05) := by decide
theorem test_decode_hdrL0R : decode (.header 0b00_1_11111) = .ok (.hdrL0R 0x1F) := by decide
theorem test_decode_hdrL1 : decode (.header 0b01_0_11000) = .ok (.hdrL1 0x18) := by decide
theorem test_decode_hdrL1R : decode (.header 0b01_1_00011) = .ok (.hdrL1R 0x03) := by decide
theorem test_decode_hdrL2 : decode (.header 0b10_0_00010) = .ok (.hdrL2 0x02) := by decide
theorem test_decode_hdrL2R : decode (.header 0b10_1_00111) = .ok (.hdrL2R 0x07) := by decide
theorem test_decode_hdrL4 : decode (.header 0b11_0_00010) = .ok (.hdrL4 0x02) := by decide
theorem test_decode_hdrL4R : decode (.header 0b11_1_00000) = .ok (.hdrL4R 0x00) := by decide

-- One word of each row of the opcode table.
theorem test_table_words :
    [0x01, 0x02, 0x03, 0x04, 0x07, 0x00, 0x20, 0x40, 0x60, 0x80, 0xA0, 0xC0, 0xE0].map (decodeTableWord 8) =
      [some (.push []), some .take, some (.encode 0 none []), some .query, some .clear, some (.hdrL0 0),
        some (.hdrL0R 0), some (.hdrL1 0), some (.hdrL1R 0), some (.hdrL2 0), some (.hdrL2R 0), some (.hdrL4 0),
        some (.hdrL4R 0)] := by decide

-- HV1 to HV8.
theorem test_header_compose :
    [hdrByte 0 false 0x00, hdrByte 0 false 0x01, hdrByte 0 true 0x01, hdrByte 1 false 0x1F, hdrByte 1 true 0x03,
        hdrByte 2 false 0x0D, hdrByte 3 false 0x00, hdrByte 3 true 0x1F] =
      [0x00, 0x01, 0x21, 0x5F, 0x63, 0x8D, 0xC0, 0xFF] := by decide

/-! ## The length selector: LV1 to LV12 -/

theorem test_lfSel :
    [0, 1, 0x7F, 0xFF, 0x100, 0x1FF, 0x1234, 0xFFFF, 0x10000, 0x00FF0000, 0x12345678, 0xFFFFFFFF].map lfSel =
      [.w0, .w1, .w1, .w1, .w2, .w2, .w2, .w2, .w4, .w4, .w4, .w4] := by decide
theorem test_bytesLE :
    bytesLE 0x1234 2 = [0x34, 0x12] ∧ bytesLE 0x12345678 4 = [0x78, 0x56, 0x34, 0x12] := by decide

/-! ## The parser: DV and MM vectors -/

-- DV3, DV7, DV11, DV17, DV18, DV22.
theorem test_parse_without_frame :
    [[0x01, 0xFF, 0xFF, 0xFF], [0x41, 0x58, 0x52, 0x32, 0x4B], [0x21, 0x58, 0x52, 0x32, 0x4B],
        [0x63, 0x7E, 0x58, 0x52, 0x32, 0x4B, 0x03, 0x10, 0x20, 0x30], [0x82, 0x58, 0x52, 0x32, 0x4B, 0x00, 0x01],
        [0xA7, 0x58, 0x52, 0x32, 0x4B, 0x09, 0x03]].map decodeFrame =
      [.short, .incomplete, .incomplete, .badMagic, .incomplete, .incomplete] := by decide
-- DV13: a length field wider than needed.
theorem test_parse_dv13 :
    decodeFrame [0xC2, 0x58, 0x52, 0x32, 0x4B, 0x03, 0x00, 0x00, 0x00, 0x01, 0x02, 0x03] =
      .frame ⟨0x02, none, [0x01, 0x02, 0x03]⟩ 12 := by decide
-- DV21.
theorem test_parse_dv21 :
    parseHeader [0xA7, 0x58, 0x52, 0x32, 0x4B, 0x09, 0x03, 0x00, 0xAA, 0xBB, 0xCC] =
      .header ⟨2, true, 0x07, some 0x09, .w2, 3, 8⟩ := by decide

/-! ## The commands, at most two tests each -/

-- PV2: 4 of 6 bytes fit into a queue of 16 that holds 12.
theorem test_push_partial :
    nextOf (exec (.push [0xA0, 0xA1, 0xA2, 0xA3, 0xA4, 0xA5]) (block (List.replicate 12 0x00) false 0x00 (.finite 16))) =
      some { block (List.replicate 12 0x00 ++ [0xA0, 0xA1, 0xA2, 0xA3]) false 0x00 (.finite 16) with
        rsp := some (.okAccepted 4) } := by decide
-- PV5: PUSH in the fatal state.
theorem test_push_fatal :
    nextOf (exec (.push [0x01]) (block [0x01, 0x58, 0x52, 0x32, 0x4C] true 0x03 .inf)) =
      some { block [0x01, 0x58, 0x52, 0x32, 0x4C, 0x01] true 0x03 .inf with rsp := some (.okAccepted 1) } := by decide
-- TV1.
theorem test_take_frame :
    nextOf (exec .take (running [0x41, 0x58, 0x52, 0x32, 0x4B, 0x02, 0xAA, 0xBB, 0x01])) =
      some { running [0x01] with rsp := some (.okPacket ⟨0x01, none, [0xAA, 0xBB]⟩ 8) } := by decide
-- TV2, TV3, TV4, TV6, TV7, TV9, TV10, TV12, TV13, TV17.
theorem test_take_statuses :
    [running [], running [0x01, 0x58, 0x52, 0x32, 0x4C], block [0x01, 0x58, 0x52, 0x32, 0x4B] true 0x03 .inf,
        block [0x41, 0x58, 0x52, 0x32, 0x4B, 0x0A] false 0x00 (.finite 16),
        block [0x41, 0x58, 0x52, 0x32, 0x4B, 0x0B] false 0x00 (.finite 16),
        block [0x41, 0x58, 0x52, 0x32, 0x4C, 0x20] false 0x00 (.finite 16), block [] true 0x04 (.finite 16),
        block [0xE0, 0x58, 0x52, 0x32, 0x4B, 0x05, 0x00, 0x00, 0x00, 0x00] false 0x00 (.finite 10),
        block [0xE0, 0x58, 0x52, 0x32, 0x4B, 0x05, 0x01, 0x00, 0x00, 0x00] false 0x00 (.finite 10),
        running [0x21, 0x58, 0x52, 0x32, 0x4B]].map (fun s => rspOf (exec .take s)) =
      [some .short, some .badMagic, some .badMagic, some .incomplete, some .oversize, some .badMagic, some .oversize,
        some (.okPacket ⟨0x00, some 0x05, []⟩ 10), some .oversize, some .incomplete] := by decide
-- EV3, EV13: ENCODE, in the fatal state too.
theorem test_encode_ev3 :
    nextOf (exec (.encode 0x03 (some 0x7E) [0x10, 0x20, 0x30]) (block [] true 0x03 .inf)) =
      some { block [] true 0x03 .inf with rsp := some .ok, tx := ev3 } := by decide
-- EV9, EV10: the type is masked to 5 bits; a request id of 0 is a request id.
theorem test_encode_ev9_ev10 :
    encodeFrame 0x25 none [] = [0x05, 0x58, 0x52, 0x32, 0x4B] ∧
      encodeFrame 0x01 (some 0x00) [] = [0x21, 0x58, 0x52, 0x32, 0x4B, 0x00] := by decide
-- QV3.
theorem test_query :
    rspOf (exec .query (block [0x41, 0x58, 0x52, 0x32, 0x4B, 0x20] true 0x04 (.finite 16))) =
      some (.okView true 0x04 6) := by decide
-- CV1.
theorem test_clear :
    nextOf (exec .clear (block [0x01, 0x58, 0x52, 0x32, 0x4C] true 0x03 .inf)) =
      some { running [] with rsp := some .ok } := by decide
-- IV6: 0xFF is not CLEAR.
theorem test_reserved :
    nextOf (step { running [0x01] with port := [.command (Transaction.ofWord 0xFF)] }) =
      some { running [0x01] with rsp := some .illegal } := by decide

/-! ## The header forms: frames of R47 -/

-- DV4.
theorem test_hdrL0 :
    rspOf (exec (.hdrL0 0x01) (running [0x01, 0x58, 0x52, 0x32, 0x4B])) =
      some (.okPacket ⟨0x01, none, []⟩ 5) := by decide
-- DV12.
theorem test_hdrL0R :
    rspOf (exec (.hdrL0R 0x01) (running [0x21, 0x58, 0x52, 0x32, 0x4B, 0x09])) =
      some (.okPacket ⟨0x01, some 0x09, []⟩ 6) := by decide
-- DV25.
theorem test_hdrL1 :
    rspOf (exec (.hdrL1 0x0A) (running [0x4A, 0x58, 0x52, 0x32, 0x4B, 0x09, 0xFF, 0xFF, 0xFF, 0xFF, 0x0A, 0, 0, 0, 0])) =
      some (.okPacket ⟨0x0A, none, [0xFF, 0xFF, 0xFF, 0xFF, 0x0A, 0, 0, 0, 0]⟩ 15) := by decide
-- DV16.
theorem test_hdrL1R : rspOf (exec (.hdrL1R 0x03) (running ev3)) = some (.okPacket ev3Packet 10) := by decide
-- DV18.
theorem test_hdrL2 :
    rspOf (exec (.hdrL2 0x02) (running [0x82, 0x58, 0x52, 0x32, 0x4B, 0x00, 0x01])) = some .incomplete := by decide
-- DV21.
theorem test_hdrL2R :
    rspOf (exec (.hdrL2R 0x07) (running [0xA7, 0x58, 0x52, 0x32, 0x4B, 0x09, 0x03, 0x00, 0xAA, 0xBB, 0xCC])) =
      some (.okPacket ⟨0x07, some 0x09, [0xAA, 0xBB, 0xCC]⟩ 11) := by decide
-- DV13.
theorem test_hdrL4 :
    rspOf (exec (.hdrL4 0x02) (running [0xC2, 0x58, 0x52, 0x32, 0x4B, 0x03, 0, 0, 0, 0x01, 0x02, 0x03])) =
      some (.okPacket ⟨0x02, none, [0x01, 0x02, 0x03]⟩ 12) := by decide
-- DV19.
theorem test_hdrL4R :
    rspOf (exec (.hdrL4R 0x1F) (running [0xFF, 0x58, 0x52, 0x32, 0x4B, 0x01, 0, 0, 0, 0])) =
      some (.okPacket ⟨0x1F, some 0x01, []⟩ 10) := by decide

/-! ## Steps -/

-- R126: a command that arrives with a reset answers first.
theorem test_command_with_reset :
    nextOf (step { running [0x01] with port := [.commandWithReset (Transaction.ofWord 0x04)] }) =
      some { running [0x01] with port := [.reset], rsp := some (.okView false 0x00 1) } := by decide
-- The word of HDR_L2R placed as the first instruction of a block after reset is taken as a whole frame.
theorem test_fetch_header_word :
    nextOf (step ((State.resetAt .inf).withFetchWord 8 0xA7)) =
      some { running [] with rsp := some (.okPacket ⟨0x07, some 0x00, []⟩ 8) } := by decide
-- The word of QUERY placed as the first instruction after reset, whatever `BUF_DEPTH` is.
theorem test_fetch_command_word : rspOf (step (State.reset.withFetchWord 8 0x04)) = some (.okView false 0x00 0) := by
  decide

/-! ## Hypotheses that can be met, statement by statement -/

theorem witness_WellFormedTransactionReencodes :
    Transaction.wf { Transaction.ofWord 0x01 with chunk := [0xAA] } = true ∧
      Transaction.wf { Transaction.ofWord 0x03 with type := 0xFF, rid := some 0, payload := [0x01] } = true ∧
      Transaction.wf (Transaction.ofWord 0x02) = true := by decide

theorem witness_CommandWordsSelectTheCommands :
    (∀ w ∈ [(0x00 : Byte), 0x08, 0xF8], w.toNat % 8 = 0) ∧ (0x05 : Byte).toNat % 8 = 5 ∧
      (0x06 : Byte).toNat % 8 = 6 ∧ ∀ w ∈ [(0x08 : Byte), 0x81, 0xFF], w.toNat / 8 ≠ 0 := by decide

-- The hypotheses of the decoding clauses of the statements about PUSH, TAKE, ENCODE, QUERY and CLEAR.
theorem witness_command_words :
    (∀ w : Byte, (Transaction.ofWord w).operandsWf = true ∧ (Transaction.ofWord w).word = w) ∧
      (Transaction.mk 0x01 [0xAA] 0 none []).operandsWf = true ∧
      (Transaction.mk 0x03 [] 0xFF (some 0x00) [0x01]).operandsWf = true := by decide

-- A chunk beside TAKE, and every field beside PUSH and ENCODE.
theorem witness_StrayOperandFieldsAreIgnored :
    ∀ t ∈ [Transaction.mk 0x02 [0x01] 0 none [], ⟨0x01, [0x01], 0x02, some 0x03, [0x04]⟩,
        ⟨0x03, [0x01], 0x02, some 0x03, [0x04]⟩],
      t.operandsWf = false ∧ t.word.toNat ∈ [1, 2, 3] := by decide

theorem witness_LengthSelectorByMagnitude :
    lfSel 0 = .w0 ∧ lfSel 1 = .w1 ∧ lfSel 255 = .w1 ∧ lfSel 256 = .w2 ∧ lfSel 65535 = .w2 ∧ lfSel 65536 = .w4 ∧
      lfSel (2 ^ 32 - 1) = .w4 ∧ 255 < 256 ^ LF.w1.bytes := by decide

theorem witness_DecodeUndoesEncode : ev3Packet.wf = true := by decide

theorem witness_DecodingIsStableUnderMoreBytes :
    decodeFrame ev3 = .frame ev3Packet 10 ∧
      parseHeader [0x41, 0x58, 0x52, 0x32, 0x4B, 0x02, 0xAA] = .header ⟨1, false, 0x01, none, .w1, 2, 6⟩ := by decide

theorem witness_WrongMagicStaysWrong : parseHeader [0x01, 0x58, 0x52, 0x32, 0x4C] = .badMagic := by decide

-- MM1 and MM4.
theorem witness_CorruptedMagicIsBadMagic :
    ev3Packet.wf = true ∧ magic[1 - 1]? ≠ some 0x00 ∧ magic[4 - 1]? ≠ some 0x4A := by decide

-- DV9 is canonical, DV10 and DV13 are not.
theorem witness_ReencodingIffCanonical :
    decodeFrame [0x41, 0x58, 0x52, 0x32, 0x4B, 0x02, 0xAA, 0xBB] = .frame ⟨0x01, none, [0xAA, 0xBB]⟩ 8 ∧
      (hdrFields 0x41).1 = lflOfLf (lfSel 2) ∧
      decodeFrame [0x41, 0x58, 0x52, 0x32, 0x4B, 0x00] = .frame ⟨0x01, none, []⟩ 6 ∧
      (hdrFields 0x41).1 ≠ lflOfLf (lfSel 0) := by decide

theorem witness_TakeRunsTheHeaderForm : (running ev3).buf = 0x63 :: ev3.tail := by decide

-- A queue of exactly the frame's bytes, for each of the two forms.
theorem witness_FormsWithoutLengthDeliver :
    let s := block [0x1F, 0x58, 0x52, 0x32, 0x4B] false 0x00 (.finite 10)
    let s' := block [0x3F, 0x58, 0x52, 0x32, 0x4B, 0xFF, 0x01] false 0x00 (.finite 10)
    s.fatal = false ∧ s.buf = BitVec.ofNat 8 (0x00 + (0x1F : BitVec 5).toNat) :: 0x58 :: 0x52 :: 0x32 :: 0x4B :: [] ∧
      withinDepth 5 s.depth = true ∧ s'.fatal = false ∧
      s'.buf = BitVec.ofNat 8 (0x20 + (0x1F : BitVec 5).toNat) :: 0x58 :: 0x52 :: 0x32 :: 0x4B :: 0xFF :: [0x01] ∧
      withinDepth 6 s'.depth = true := by decide

-- 4 and 3 payload bytes fill a queue of 10 exactly.
theorem witness_FormsWithOneLengthByteDeliver :
    let s := block [0x40, 0x58, 0x52, 0x32, 0x4B, 0x04, 1, 2, 3, 4] false 0x00 (.finite 10)
    let s' := block ev3 false 0x00 (.finite 10)
    s.fatal = false ∧ [1, 2, 3, 4].length = (0x04 : Byte).toNat ∧
      s.buf = BitVec.ofNat 8 (0x40 + (0 : BitVec 5).toNat) :: 0x58 :: 0x52 :: 0x32 :: 0x4B :: 0x04 ::
        ([1, 2, 3, 4] ++ []) ∧
      withinDepth (6 + 4) s.depth = true ∧ [16, 32, 48].length = (0x03 : Byte).toNat ∧
      s'.buf = BitVec.ofNat 8 (0x60 + (3 : BitVec 5).toNat) :: 0x58 :: 0x52 :: 0x32 :: 0x4B :: 0x7E :: 0x03 ::
        ([0x10, 0x20, 0x30] ++ []) ∧
      withinDepth (7 + 3) s'.depth = true := by decide

-- A payload of 256 bytes, the least that needs the second length byte.
theorem witness_FormsWithTwoLengthBytesDeliver :
    let payload : Bytes := List.replicate 256 0x00
    let s := block ([0x82, 0x58, 0x52, 0x32, 0x4B, 0x00, 0x01] ++ payload) false 0x00 (.finite 263)
    let s' := block ([0xA2, 0x58, 0x52, 0x32, 0x4B, 0x09, 0x00, 0x01] ++ payload) false 0x00 (.finite 264)
    s.fatal = false ∧ payload.length = (0x00 : Byte).toNat + 256 * (0x01 : Byte).toNat ∧
      s.buf = BitVec.ofNat 8 (0x80 + (2 : BitVec 5).toNat) :: 0x58 :: 0x52 :: 0x32 :: 0x4B :: 0x00 :: 0x01 ::
        (payload ++ []) ∧
      withinDepth (7 + payload.length) s.depth = true ∧ s'.fatal = false ∧
      s'.buf = BitVec.ofNat 8 (0xA0 + (2 : BitVec 5).toNat) :: 0x58 :: 0x52 :: 0x32 :: 0x4B :: 0x09 :: 0x00 :: 0x01 ::
        (payload ++ []) ∧
      withinDepth (8 + payload.length) s'.depth = true := by
  refine ⟨rfl, ?_, ?_, ?_, rfl, ?_, ?_⟩
  · simp only [List.length_replicate]; decide
  · exact (congrArg _ (List.append_nil _).symm :)
  · simp only [List.length_replicate]; decide
  · exact (congrArg _ (List.append_nil _).symm :)
  · simp only [List.length_replicate]; decide

-- DV13 and DV19, the largest header, in a queue of 12 and of 10.
theorem witness_FormsWithFourLengthBytesDeliver :
    let s := block [0xC2, 0x58, 0x52, 0x32, 0x4B, 0x03, 0, 0, 0, 1, 2, 3] false 0x00 (.finite 12)
    let s' := block [0xFF, 0x58, 0x52, 0x32, 0x4B, 0x01, 0, 0, 0, 0] false 0x00 (.finite 10)
    s.fatal = false ∧
      [1, 2, 3].length =
        (0x03 : Byte).toNat + 256 * (0 : Byte).toNat + 65536 * (0 : Byte).toNat + 16777216 * (0 : Byte).toNat ∧
      s.buf = BitVec.ofNat 8 (0xC0 + (2 : BitVec 5).toNat) :: 0x58 :: 0x52 :: 0x32 :: 0x4B :: 0x03 :: 0 :: 0 :: 0 ::
        ([1, 2, 3] ++ []) ∧
      withinDepth (9 + 3) s.depth = true ∧
      s'.buf = BitVec.ofNat 8 (0xE0 + (0x1F : BitVec 5).toNat) :: 0x58 :: 0x52 :: 0x32 :: 0x4B :: 0x01 :: 0 :: 0 :: 0 :: 0 ::
        ([] ++ []) ∧
      withinDepth (10 + 0) s'.depth = true := by decide

-- A queue that the pieces fill exactly.
-- A queue with no room, one with some, and the sticky state.
theorem witness_PushAppendsWhatFits :
    (block (List.replicate 10 0x00) false 0x00 (.finite 10)).Legal ∧ (block ev3 false 0x00 .inf).Legal ∧
      (block (List.replicate 9 0x00) true 0x03 (.finite 10)).Legal := by decide

-- One state for each way TAKE can answer first: sticky, SHORT, and beyond.
theorem witness_TakeFollowsTheOrderOfChecks :
    (block [] true 0x04 (.finite 10)).Legal ∧ (block [0x01] false 0x00 .inf).Legal ∧ (running ev3).Legal := by decide

theorem witness_PushSplitsFreely :
    rspOf (exec (.push [[0x01, 0x02], [], [0x03]].flatten) (block (List.replicate 7 0) false 0x00 (.finite 10))) =
      some (.okAccepted [[(0x01 : Byte), 0x02], [], [0x03]].flatten.length) := by decide

theorem witness_TakeReturnsTheEncodedPacket :
    let s := block (encodePacket ev3Packet ++ []) false 0x00 (.finite 10)
    ev3Packet.wf = true ∧ s.fatal = false ∧ s.buf = encodePacket ev3Packet ++ [] ∧
      withinDepth (encodePacket ev3Packet).length s.depth = true := by decide

theorem witness_ConsumedBytesAreTheFrame :
    rspOf (exec .take (running [0x00, 0x58, 0x52, 0x32, 0x4B])) = some (.okPacket ⟨0x00, none, []⟩ 5) := by decide

-- TV13: 11 bytes announced to a queue of 10.
theorem witness_OversizeAsSoonAsTheHeaderIsRead :
    let s := block [0xE0, 0x58, 0x52, 0x32, 0x4B, 0x05, 0x01, 0x00, 0x00, 0x00] false 0x00 (.finite 10)
    s.fatal = false ∧ s.depth = .finite 10 ∧ parseHeader s.buf = .header ⟨3, true, 0x00, some 0x05, .w4, 1, 10⟩ ∧
      10 < 10 + 1 ∧ (running ev3).faultExplained = true ∧ (running ev3).depth = .inf ∧
      (block [0x01, 0x58, 0x52, 0x32, 0x4C] true 0x03 .inf).faultExplained = true := by decide

-- TV12: a full queue of the least legal depth.
theorem witness_FullQueueMakesProgress :
    let s := block [0xE0, 0x58, 0x52, 0x32, 0x4B, 0x05, 0x00, 0x00, 0x00, 0x00] false 0x00 (.finite 10)
    s.depth = .finite 10 ∧ 10 ≤ 10 ∧ s.buf.length = 10 ∧ s.fatal = false ∧
      rspOf (exec (.push [0x01]) s) = some (.okAccepted 0) ∧ 0 < [(0x01 : Byte)].length := by decide

-- Both ends of the range of k, and the ends of its three clauses.
theorem witness_IncrementalDelivery :
    ev3Packet.wf = true ∧ withinDepth (encodePacket ev3Packet).length (.finite 10) = true ∧
      ∀ k ∈ [1, 4, 5, 9, 10], 1 ≤ k ∧ k ≤ (encodePacket ev3Packet).length := by decide

theorem witness_ChunkingIndependence :
    let is : List Instr := [.push [0x01, 0x58, 0x52], .take, .push ([0x32, 0x4B] ++ ev3), .take, .take]
    let s := running []
    (∀ i ∈ is, isPushOrTake i = true) ∧ s.buf = [] ∧ s.fatal = false ∧
      (∀ r ∈ responses (is ++ [.take]) s, r ≠ some .oversize) ∧
      (issueAll (is ++ [.take]) s).rsp.bind Response.packet? = none ∧
      packetsOf (responses is s) = [⟨0x01, none, []⟩, ev3Packet] := by decide

-- An interleaving without an OVERSIZE whose next TAKE would answer OVERSIZE: only the first clause speaks of it.
theorem witness_ChunkingIndependence_prefix :
    let is : List Instr := [.push [0x01, 0x58, 0x52, 0x32, 0x4B], .take, .push [0x41, 0x58, 0x52, 0x32, 0x4B, 0xFF]]
    let s := block [] false 0x00 (.finite 10)
    (∀ r ∈ responses is s, r ≠ some .oversize) ∧ packetsOf (responses is s) = [⟨0x01, none, []⟩] ∧
      (issueAll (is ++ [.take]) s).rsp = some .oversize := by decide

theorem witness_LoopbackReturnsThePacket :
    ev3Packet.wf = true ∧ (State.resetAt (.finite 10)).fatal = false ∧ (State.resetAt (.finite 10)).buf = [] ∧
      withinDepth (encodePacket ev3Packet).length (State.resetAt (.finite 10)).depth = true := by decide

theorem witness_NextFrameDeliversOverAnyChunks :
    let chunks : List Bytes := [[0x63, 0x58], [0x52, 0x32, 0x4B, 0x7E, 0x03, 0x10, 0x20], [0x30]]
    ev3Packet.wf = true ∧ chunks.flatten = encodePacket ev3Packet ∧ (∀ c ∈ chunks, c ≠ []) ∧
      chunks.length ≤ 3 ∧
      (State.resetAt (.finite 10)).buf = [] ∧ (State.resetAt (.finite 10)).fatal = false ∧
      withinDepth (encodePacket ev3Packet).length (State.resetAt (.finite 10)).depth = true := by decide

theorem witness_ClearIsReset :
    ({ running ev3 with port := [.reset, .reset] } : State).port = .reset :: [.reset] := by decide

theorem witness_BadMagicIsPermanent :
    let is : List Instr := [.push [0x01], .take]
    (∀ i ∈ is, isPushOrTake i = true) ∧ parseHeader [0x58, 0x52, 0x32, 0x4B, 0x01] = .badMagic ∧
      (block [0x58, 0x52, 0x32, 0x4B, 0x01] true 0x03 .inf).cause = 0x03 := by decide

theorem witness_StatusCodesByCommand :
    rspOf (exec .take (running [0x58, 0x52, 0x32, 0x4B, 0x01])) = some .badMagic ∧
      (running [0x58, 0x52, 0x32, 0x4B, 0x01]).fatal = false := by decide

-- TV3 and TV5.
theorem witness_FatalEntryIsPrecise :
    (nextOf (exec .take (running [0x01, 0x58, 0x52, 0x32, 0x4C]))).map State.fatal = some true ∧
      (nextOf (exec .take (block [0x41, 0x58, 0x52, 0x32, 0x4B, 0x20] false 0x00 (.finite 16)))).map State.cause =
        some 0x04 := by decide

theorem witness_FatalStateBehaviour :
    let s := { block ev3 true 0x04 (.finite 10) with port := [.command (Transaction.ofWord 0x05)] }
    s.fatal = true ∧ s.cause = 0x04 ∧ (0x05 : Byte).toNat ∉ [1, 2, 3, 4, 7] ∧
      s.port = .command (Transaction.ofWord 0x05) :: [] ∧ [(0x01 : Byte)].length ≤ 2 ^ 32 - 1 := by decide

theorem witness_OnlyResetOrClearLeavesFatal :
    let s := { block ev3 true 0x03 .inf with port := [.command (Transaction.ofWord 0x07)] }
    let s' := { block ev3 true 0x03 .inf with port := [.commandWithReset (Transaction.ofWord 0x02)] }
    s.fatal = true ∧ s'.fatal = true ∧ (nextOf (step s)).map State.fatal = some false ∧
      (nextOf (step s')).map State.fatal = some true := by decide

theorem witness_NoPacketWhileFatal :
    let s := { block ev3 true 0x03 .inf with port := [.command (Transaction.ofWord 0x02), .reset] }
    s.fatal = true ∧ s.rsp.bind Response.packet? = none ∧ (∀ a ∈ s.port.take 1, a.clears = false) ∧
      ∀ a ∈ s.port.take 0, a.clears = false := by decide

theorem witness_ReservedWordsAnswerIllegal :
    let w := Transaction.ofWord 0x81
    ({ running [0x01] with port := [.command w] } : State).port = .command w :: [] ∧ w.word.toNat / 8 ≠ 0 := by decide

theorem witness_LegalStatesAreKept :
    (block ev3 false 0x00 (.finite 10)).Legal ∧ (block [0x01, 0x58, 0x52, 0x32, 0x4C] true 0x03 .inf).Legal := by decide

theorem witness_ResetStateIsLegal : (Depth.finite 10).wf = true ∧ Depth.inf.wf = true := by decide

theorem witness_FaultStaysExplained :
    (block [0x01, 0x58, 0x52, 0x32, 0x4C] true 0x03 .inf).faultExplained = true ∧
      (block [0x41, 0x58, 0x52, 0x32, 0x4B, 0x0B] true 0x04 (.finite 16)).faultExplained = true ∧
      (running ev3).faultExplained = true := by decide

theorem witness_EachInstructionChangesOnlyItsOwn :
    ∀ i ∈ [Instr.push [0x01], .take, .encode 0 none [], .query, .clear, .hdrL0 0],
      (nextOf (exec i (running ev3))).isSome = true := by decide

theorem witness_StepRunsTheDecodedCommand :
    decode (.command (Transaction.ofWord 0x04)) = .ok .query ∧
      ({ running [] with port := [.command (Transaction.ofWord 0x04)] } : State).port =
        .command (Transaction.ofWord 0x04) :: [] ∧
      ({ running [] with port := [.commandWithReset (Transaction.ofWord 0x04)] } : State).port =
        .commandWithReset (Transaction.ofWord 0x04) :: [] := by decide

theorem witness_StepRunsTheHeaderForm :
    let s := { running ev3 with port := [.command (Transaction.ofWord 0x02)] }
    (Transaction.ofWord 0x02).word = 0x02 ∧ s.port = .command (Transaction.ofWord 0x02) :: [] ∧
      s.buf = 0x63 :: ev3.tail ∧ decode (.header 0x63) = .ok (.hdrL1R 0x03) := by decide

theorem witness_ResetTakesEffectBetweenCommands :
    ({ running ev3 with port := [.commandWithReset (Transaction.ofWord 0x02)] } : State).port =
        .commandWithReset (Transaction.ofWord 0x02) :: [] ∧
      ({ running ev3 with port := [.reset] } : State).port = .reset :: [] ∧
      (Transaction.ofWord 0x02).word ≠ 0x07 ∧
      rspOf (step { block [] true 0x04 .inf with port := [.commandWithReset (Transaction.ofWord 0x02)] }) =
        some .oversize := by decide

/-- An injective numbering of the sixteen names, one of many: the codes are open (R9). -/
def someCode : PacketType → BitVec 5
  | .help => 16 | .hello => 1 | .documentation => 2 | .register => 3 | .registered => 4 | .login => 5
  | .getStatus => 6 | .status => 7 | .getMail => 8 | .mail => 9 | .sendMail => 10 | .configure => 11
  | .route => 12 | .translate => 13 | .translation => 14 | .result => 31

/-- A name with each code of `someCode`. -/
def someName (c : BitVec 5) : PacketType := (packetTypes.find? (fun n => someCode n == c)).getD .help

theorem someName_someCode (n : PacketType) : someName (someCode n) = n := by cases n <;> decide

theorem witness_TypeNamesClassify : ∃ tc : TypeCode, classify tc 16 = some .help ∧ classify tc 0 = none :=
  ⟨⟨someCode, fun a b h => by rw [← someName_someCode a, h, someName_someCode b]⟩, by decide, by decide⟩

end Sys2Proof.Tests
end

