-- ==== Sys2Proof/Proofs/TypeNames.lean ====
section
/-! PROOFS. The host's naming of packet types (spec/00_scope.md R9, R15; spec/30_encoding.md R58). -/

namespace Sys2Proof.Machine

/-- R15: the list of the names leaves none out. -/
@[simp] theorem mem_packetTypes (n : PacketType) : n ∈ packetTypes := by
  cases n <;> decide

/-- A name is answered only for its own code, and injectivity leaves no second name with that code. -/
theorem classify_eq_some_iff (tc : TypeCode) (t : BitVec 5) (n : PacketType) :
    classify tc t = some n ↔ tc.code n = t := by
  constructor
  · intro hfind
    simpa using List.find?_some hfind
  · rintro rfl
    have hfound : (classify tc (tc.code n)).isSome :=
      List.find?_isSome.mpr ⟨n, mem_packetTypes n, by simp⟩
    obtain ⟨m, hm⟩ := Option.isSome_iff_exists.mp hfound
    have hcode : tc.code m = tc.code n := by simpa using List.find?_some hm
    rw [hm, tc.injective hcode]

/-- The unknown types are those that are no name's code. -/
theorem classify_eq_none_iff (tc : TypeCode) (t : BitVec 5) :
    classify tc t = none ↔ ∀ n : PacketType, tc.code n ≠ t := by
  simp only [Option.eq_none_iff_forall_ne_some, ne_eq, classify_eq_some_iff]

/-- Settles O50: what `classify` answers is decided by `TYPE_CODE` alone, for a name and for the unknown case. -/
theorem typeNamesClassify : Obligations.TypeNamesClassify := by
  intro tc
  have hcount : packetTypes.length = 16 := rfl
  have hnamed (n : PacketType) : classify tc (tc.code n) = some n := (classify_eq_some_iff tc _ n).mpr rfl
  exact ⟨hcount, hnamed, classify_eq_none_iff tc⟩

end Sys2Proof.Machine
end

section
/-! PROOFS. What every instruction does to the state (spec/10_state.md R17; spec/20_memory.md R33, R41), the invariants of
the state (R20) and the reset state (R30). -/

namespace Sys2Proof.Machine

/-! ## The meanings, sorted by what they do -/

/-- ENCODE drives its outputs and does nothing else, whether the payload fits or not (R78). -/
theorem exec_encode_answers (type : Byte) (rid : Option Byte) (payload : Bytes) (s : State) :
    ∃ r out, exec (.encode type rid payload) s = .next (answerWith r out s) := by
  rw [exec_encode]
  split
  · exact ⟨.encodeError, [], rfl⟩
  · exact ⟨.ok, encodeFrame type rid payload, rfl⟩

/-- TAKE and the header forms differ in their parser only (R98, log 4). -/
theorem exec_of_isTaking (i : Instr) (hi : isTaking i = true) (s : State) :
    ∃ parse, exec i s = .next (takeWith parse s) := by
  cases i with
  | push chunk => cases hi
  | encode type rid payload => cases hi
  | query => cases hi
  | clear => cases hi
  | take => exact ⟨parseHeader, exec_take s⟩
  | hdrL0 t => exact ⟨_, exec_headerForm .w0 false t s⟩
  | hdrL0R t => exact ⟨_, exec_headerForm .w0 true t s⟩
  | hdrL1 t => exact ⟨_, exec_headerForm .w1 false t s⟩
  | hdrL1R t => exact ⟨_, exec_headerForm .w1 true t s⟩
  | hdrL2 t => exact ⟨_, exec_headerForm .w2 false t s⟩
  | hdrL2R t => exact ⟨_, exec_headerForm .w2 true t s⟩
  | hdrL4 t => exact ⟨_, exec_headerForm .w4 false t s⟩
  | hdrL4R t => exact ⟨_, exec_headerForm .w4 true t s⟩

/-- The four ways TAKE changes the state, without the reason why: it waits, it enters the fatal state, it reports the
fatal state it is in, or it consumes a frame. -/
theorem takeWith_effects (parse : Bytes → HeaderResult) (s : State) :
    (∃ r, (r = .short ∨ r = .incomplete) ∧ takeWith parse s = answer r s) ∨
      (s.fatal = false ∧ ∃ c, takeWith parse s = enterFatal c s) ∨
      (s.fatal = true ∧ takeWith parse s = answer (stickyResponse s.cause) s) ∨
      ∃ p n, n ≤ s.buf.length ∧ takeWith parse s = answer (.okPacket p n) (bufDrop n s) := by
  rcases takeWith_cases parse s with sticky | ⟨hf, short | bad | incomplete | ⟨h, -, large | part | whole⟩⟩
  · exact .inr (.inr (.inl sticky))
  · exact .inl ⟨.short, .inl rfl, short.2⟩
  · exact .inr (.inl ⟨hf, .badMagic, bad.2⟩)
  · exact .inl ⟨.incomplete, .inr rfl, incomplete.2⟩
  · exact .inr (.inl ⟨hf, .oversize, large.2⟩)
  · exact .inl ⟨.incomplete, .inr rfl, part.2.2⟩
  · exact .inr (.inr (.inr ⟨h.packet s.buf, h.total, whole.2⟩))

theorem stickyResponse_cases (cause : Byte) :
    stickyResponse cause = .badMagic ∨ stickyResponse cause = .oversize := by
  unfold stickyResponse
  split
  · exact .inl rfl
  · exact .inr rfl

/-! ## The frame of every instruction -/

/-- What TAKE and the header forms may do between `s` and `t`: the last arm of `EachInstructionChangesOnlyItsOwn`. -/
def TakeFrame (s t : State) : Prop :=
  t.tx = [] ∧
    ((∃ p n, t.rsp = some (.okPacket p n) ∧ n ≤ s.buf.length ∧ t.buf = s.buf.drop n ∧
        t.fatal = s.fatal ∧ t.cause = s.cause) ∨
      (t.rsp.bind Response.packet? = none ∧ t.buf = s.buf ∧
        ((t.rsp = some .short ∨ t.rsp = some .incomplete) ∧ t.fatal = s.fatal ∧ t.cause = s.cause ∨
          t.rsp = some .badMagic ∧ t.fatal = true ∧ t.cause = (if s.fatal = true then s.cause else 0x03) ∨
          t.rsp = some .oversize ∧ t.fatal = true ∧ t.cause = (if s.fatal = true then s.cause else 0x04))))

theorem takeWith_frame (parse : Bytes → HeaderResult) (s : State) :
    (takeWith parse s).depth = s.depth ∧ (takeWith parse s).port = s.port ∧ TakeFrame s (takeWith parse s) := by
  rcases takeWith_effects parse s with ⟨r, rfl | rfl, ht⟩ | ⟨hf, c, ht⟩ | ⟨hf, ht⟩ | ⟨p, n, hn, ht⟩ <;> rw [ht]
  · simp [TakeFrame, Response.packet?]
  · simp [TakeFrame, Response.packet?]
  · cases c <;> simp [TakeFrame, hf, FatalCondition.response, FatalCondition.code, Response.packet?]
  · rcases stickyResponse_cases s.cause with hr | hr <;> simp [TakeFrame, hf, hr, Response.packet?]
  · simp [TakeFrame, hn]

theorem exec_frame_of_isTaking (i : Instr) (hi : isTaking i = true) (s t : State) (h : exec i s = .next t) :
    t.depth = s.depth ∧ t.port = s.port ∧ TakeFrame s t := by
  obtain ⟨parse, hp⟩ := exec_of_isTaking i hi s
  rw [hp] at h
  cases h
  exact takeWith_frame parse s

/-- Settles O45: the four commands that parse nothing by their equations, TAKE and the header forms by one frame. -/
theorem eachInstructionChangesOnlyItsOwn : Obligations.EachInstructionChangesOnlyItsOwn := by
  intro i s t h
  cases i with
  | push chunk =>
    rw [exec_push] at h
    cases h
    exact ⟨rfl, rfl, ⟨_, rfl, rfl⟩, rfl, rfl, rfl⟩
  | encode type rid payload =>
    obtain ⟨r, out, he⟩ := exec_encode_answers type rid payload s
    rw [he] at h
    cases h
    simp
  | query =>
    rw [exec_query] at h
    cases h
    simp
  | clear =>
    rw [exec_clear] at h
    cases h
    simp
  | _ => exact exec_frame_of_isTaking _ rfl s t h

/-! ## The invariants of R20, operation by operation -/

/-- What a PUSH accepts never takes a queue past its capacity (R95, R20 (i)). -/
theorem withinDepth_add_acceptCount (d : Depth) (level len : Nat) (h : withinDepth level d = true) :
    withinDepth (level + acceptCount d level len) d = true := by
  cases d with
  | inf => rfl
  | finite k =>
    rw [withinDepth_finite] at h ⊢
    rw [acceptCount_finite]
    omega

namespace State.Legal

variable {s : State}

/-- The invariants speak of no port. -/
theorem withPort (hs : s.Legal) (port : List Arrival) : Legal { s with port := port } := hs

theorem answerWith (hs : s.Legal) (r : Response) (out : Bytes) : (answerWith r out s).Legal := hs

theorem answer (hs : s.Legal) (r : Response) : (answer r s).Legal := hs

theorem silent (hs : s.Legal) : (silent s).Legal := hs

theorem enterFatal (hs : s.Legal) (c : FatalCondition) : (enterFatal c s).Legal := by
  obtain ⟨hwf, hlevel, -, -⟩ := hs
  refine ⟨hwf, hlevel, ?_⟩
  cases c <;> simp [FatalCondition.code]

/-- Leaving the fatal state restores (ii) and (iii) whatever they were. -/
theorem clearState (hwf : s.depth.wf = true) : (clearState s).Legal := by
  refine ⟨hwf, ?_, by simp⟩
  rw [clearState_depth, clearState_buf]
  cases s.depth with
  | inf => rfl
  | finite d => exact (withinDepth_finite 0 d).2 (Nat.zero_le d)

theorem bufDrop (hs : s.Legal) (n : Nat) : (bufDrop n s).Legal := by
  obtain ⟨hwf, hlevel, hfault⟩ := hs
  exact ⟨hwf, withinDepth_mono _ _ _ hlevel (by simp), hfault⟩

theorem bufAppend_accepted (hs : s.Legal) (chunk : Bytes) :
    (bufAppend (chunk.take (acceptCount s.depth s.buf.length chunk.length)) s).Legal := by
  obtain ⟨hwf, hlevel, hfault⟩ := hs
  refine ⟨hwf, ?_, hfault⟩
  have hroom := withinDepth_add_acceptCount s.depth s.buf.length chunk.length hlevel
  have hlen := acceptCount_le s.depth s.buf.length chunk.length
  simpa [Nat.min_eq_left hlen] using hroom

theorem takeWith (hs : s.Legal) (parse : Bytes → HeaderResult) : (takeWith parse s).Legal := by
  rcases takeWith_effects parse s with ⟨r, -, ht⟩ | ⟨-, c, ht⟩ | ⟨-, ht⟩ | ⟨p, n, -, ht⟩ <;> rw [ht]
  · exact hs.answer r
  · exact hs.enterFatal c
  · exact hs.answer _
  · exact (hs.bufDrop n).answer _

theorem exec (hs : s.Legal) {i : Instr} {t : State} (h : exec i s = .next t) : t.Legal := by
  by_cases hi : isTaking i = true
  · obtain ⟨parse, hp⟩ := exec_of_isTaking i hi s
    rw [hp] at h
    cases h
    exact hs.takeWith parse
  · cases i with
    | push chunk =>
      rw [exec_push] at h
      cases h
      exact (hs.bufAppend_accepted chunk).answer _
    | encode type rid payload =>
      obtain ⟨r, out, he⟩ := exec_encode_answers type rid payload s
      rw [he] at h
      cases h
      exact hs.answerWith r out
    | query =>
      rw [exec_query] at h
      cases h
      exact hs.answer _
    | clear =>
      rw [exec_clear] at h
      cases h
      exact (clearState hs.1).answer .ok
    | _ => exact absurd rfl hi

theorem runTransaction (hs : s.Legal) {w : Transaction} {t : State} (h : runTransaction w s = .next t) :
    t.Legal := by
  rcases runTransaction_cases w s with ⟨i, -, hr⟩ | ⟨e, -, hr⟩ <;> rw [hr] at h
  · exact hs.exec h
  · cases h
    exact hs.answer .illegal

theorem step (hs : s.Legal) {t : State} (h : step s = .next t) : t.Legal := by
  rcases step_cases s with ⟨-, hst⟩ | ⟨rest, -, hst⟩ | ⟨w, rest, -, hst⟩ | ⟨w, rest, -, hst⟩ <;> rw [hst] at h
  · cases h
    exact hs.silent
  · cases h
    exact (clearState (hs.withPort rest).1).silent
  · exact (hs.withPort rest).runTransaction h
  · exact (hs.withPort (.reset :: rest)).runTransaction h

end State.Legal

/-- Settles O42: each shared operation keeps the invariants, so each instruction does, so each step does. -/
theorem legalStatesAreKept : Obligations.LegalStatesAreKept :=
  ⟨fun _ _ _ hs h => hs.exec h, fun _ _ hs h => hs.step h⟩

/-! ## The reset state -/

/-- Whatever the opaque choice behind `BUF_DEPTH` is, R6 admits it (log 3). -/
theorem bufDepth_wf : Config.bufDepth.wf = true := by
  unfold Config.bufDepth
  cases Config.bufDepthAbove10 with
  | none => rfl
  | some k => exact decide_eq_true (Nat.le_add_right 10 k)

theorem resetAt_legal (d : Depth) (hd : d.wf = true) : (State.resetAt d).Legal :=
  State.Legal.clearState (s := State.resetAt d) hd

theorem faultExplained_of_not_fatal (s : State) (h : s.fatal = false) : s.faultExplained = true := by
  simp [State.faultExplained, h]

/-- Settles O43: the reset state is the one for this implementation's `BUF_DEPTH`, which is legal like every other. -/
theorem resetStateIsLegal : Obligations.ResetStateIsLegal :=
  ⟨rfl, rfl, rfl, resetAt_legal Config.bufDepth bufDepth_wf, faultExplained_of_not_fatal State.reset rfl, resetAt_legal⟩

end Sys2Proof.Machine
end

section
/-! PROOFS. What the codec's results tell of the bytes they were read from: the bounds of a header and of a frame
(spec/30_encoding.md R54 to R56; spec/40_codec.md R89), and what more bytes at the tail leave as it is (R91, R92). -/

namespace Sys2Proof.Machine

/-! ## The bounds of a header -/

theorem five_le_headerLength (h : Byte) : 5 ≤ headerLength h := by
  unfold headerLength
  omega

theorem widthOf_le_four (h : Byte) : widthOf h ≤ 4 := by
  rw [widthOf_eq]
  cases lfOfLfl (hdrFields h).1 <;> decide

theorem headerLength_le_ten (h : Byte) : headerLength h ≤ 10 := by
  have hflag : flagOf h < 2 := Nat.mod_lt _ (by decide)
  have hwidth := widthOf_le_four h
  unfold headerLength
  omega

/-- A length field has at most four bytes (R51), so its value is below 2^32. -/
theorem readLength_le_maxPayload {f : Bool} {w : LF} {b : Bytes} {n : Nat} (h : readLength f w b = some n) :
    n ≤ 2 ^ 32 - 1 := by
  rcases (readLength_eq_some f w b n).1 h with ⟨-, rfl⟩ | ⟨-, hlen, rfl⟩
  · exact Nat.zero_le _
  · have hlt := fromLE_lt (slice b (5 + f.toNat) w.bytes)
    rw [slice_length b _ _ hlen] at hlt
    have hpow : 256 ^ w.bytes ≤ 2 ^ 32 := by cases w <;> decide
    exact Nat.le_sub_one_of_lt (hlt.trans_le hpow)

/-- What a parsed header says of its lengths: the header length is the head byte's (R54), the payload length fits four
bytes (R56). -/
theorem parseHeader_lengths {b : Bytes} {h : Header} (hp : parseHeader b = .header h) :
    h.hl = headerLength (b.headD 0) ∧ h.plen ≤ 2 ^ 32 - 1 := by
  cases b with
  | nil => cases hp
  | cons h₀ rest =>
    rw [parseHeader_cons, parseForm_eq_header] at hp
    obtain ⟨-, -, rid, plen, -, hplen, rfl⟩ := hp
    exact ⟨by rw [List.headD_cons, headerLength, flagOf_eq, widthOf_eq], readLength_le_maxPayload hplen⟩

/-- The payload of a frame that is all there has the length its header announces (R55, R88). -/
theorem packet_payload_length {h : Header} {b : Bytes} (hb : h.total ≤ b.length) :
    (h.packet b).payload.length = h.plen :=
  slice_length b h.hl h.plen hb

/-- R89: a decoded frame has at least 5 bytes, all of them in the queue. -/
theorem decodeFrame_consumed {b : Bytes} {p : Packet} {n : Nat} (hd : decodeFrame b = .frame p n) :
    5 ≤ n ∧ n ≤ b.length := by
  obtain ⟨h, hp, hb, -, rfl⟩ := (decodeFrame_eq_frame b p n).1 hd
  have hhl := (parseHeader_lengths hp).1
  have hfive := five_le_headerLength (b.headD 0)
  exact ⟨by unfold Header.total; omega, hb⟩

/-! ## More bytes at the tail -/

theorem magicOK_append {b : Bytes} (x : Bytes) (hb : 5 ≤ b.length) : magicOK (b ++ x) = magicOK b := by
  unfold magicOK
  rw [slice_append b x 1 4 hb]

theorem readRid_append {f : Bool} {b : Bytes} {r : Option Byte} (x : Bytes) (h : readRid f b = some r) :
    readRid f (b ++ x) = some r := by
  rw [readRid_eq_some] at h ⊢
  refine h.imp_right ?_
  rintro ⟨hf, y, hy, hr⟩
  obtain ⟨hlen, -⟩ := List.getElem?_eq_some_iff.1 hy
  exact ⟨hf, y, by rw [List.getElem?_append_left hlen, hy], hr⟩

theorem readLength_append {f : Bool} {w : LF} {b : Bytes} {n : Nat} (x : Bytes) (h : readLength f w b = some n) :
    readLength f w (b ++ x) = some n := by
  rw [readLength_eq_some] at h ⊢
  refine h.imp_right ?_
  rintro ⟨hw, hlen, hn⟩
  exact ⟨hw, by rw [List.length_append]; omega, by rw [slice_append b x _ _ hlen, hn]⟩

theorem parseForm_append_of_header {lfl : BitVec 2} {f : Bool} {t : BitVec 5} {b : Bytes} {h : Header} (x : Bytes)
    (hp : parseForm lfl f t b = .header h) : parseForm lfl f t (b ++ x) = .header h := by
  rw [parseForm_eq_header] at hp ⊢
  obtain ⟨hlen, hmagic, rid, plen, hrid, hplen, hh⟩ := hp
  exact ⟨by rw [List.length_append]; omega, by rw [magicOK_append x hlen, hmagic], rid, plen,
    readRid_append x hrid, readLength_append x hplen, hh⟩

/-- R91: a header once read stays the same. -/
theorem parseHeader_append_of_header {b : Bytes} {h : Header} (x : Bytes) (hp : parseHeader b = .header h) :
    parseHeader (b ++ x) = .header h := by
  cases b with
  | nil => cases hp
  | cons h₀ rest => exact parseForm_append_of_header x hp

/-- R92: a wrong magic stays wrong. -/
theorem parseHeader_append_of_badMagic {b : Bytes} (x : Bytes) (hp : parseHeader b = .badMagic) :
    parseHeader (b ++ x) = .badMagic := by
  rw [parseHeader_eq_badMagic] at hp ⊢
  obtain ⟨hlen, hmagic⟩ := hp
  exact ⟨by rw [List.length_append]; omega, by rw [magicOK_append x hlen, hmagic]⟩

/-- R91: a frame once read stays the same. -/
theorem decodeFrame_append_of_frame {b : Bytes} {p : Packet} {n : Nat} (x : Bytes)
    (hd : decodeFrame b = .frame p n) : decodeFrame (b ++ x) = .frame p n := by
  rw [decodeFrame_eq_frame] at hd ⊢
  obtain ⟨h, hp, hb, rfl, rfl⟩ := hd
  refine ⟨h, parseHeader_append_of_header x hp, by rw [List.length_append]; omega, ?_, rfl⟩
  unfold Header.packet
  rw [slice_append b x _ _ hb]

end Sys2Proof.Machine
end

section
/-! PROOFS. The byte queue (spec/20_memory.md): what a step runs (R38, R40), what TAKE removes (R42), and that the
packets do not depend on the chunks (R37). -/

namespace Sys2Proof.Machine

/-! ## A step -/

theorem step_of_command {t : Transaction} {rest : List Arrival} {s : State} (h : s.port = .command t :: rest) :
    step s = runTransaction t { s with port := rest } := by
  simp [step, accept, h]

theorem step_of_commandWithReset {t : Transaction} {rest : List Arrival} {s : State}
    (h : s.port = .commandWithReset t :: rest) : step s = runTransaction t { s with port := .reset :: rest } := by
  simp [step, accept, h]

/-- Settles O46: a step performs the oldest transaction, and a transaction runs the command it decodes to. -/
theorem stepRunsTheDecodedCommand : Obligations.StepRunsTheDecodedCommand := by
  intro t i rest s hi
  constructor
  · intro hport
    rw [step_of_command hport, runTransaction_of_decode t _ i hi]
  · intro hport
    rw [step_of_commandWithReset hport, runTransaction_of_decode t _ i hi]

/-! ## What TAKE removes -/

/-- TAKE returns a packet in one case only: a whole frame that the capacity admits. -/
theorem takeWith_of_okPacket {parse : Bytes → HeaderResult} {s : State} {p : Packet} {n : Nat}
    (hr : (takeWith parse s).rsp = some (.okPacket p n)) :
    ∃ h, parse s.buf = .header h ∧ withinDepth h.total s.depth = true ∧ h.total ≤ s.buf.length ∧
      p = h.packet s.buf ∧ n = h.total ∧ takeWith parse s = answer (.okPacket p n) (bufDrop n s) := by
  rcases takeWith_cases parse s with ⟨-, ht⟩ |
    ⟨-, ⟨-, ht⟩ | ⟨-, ht⟩ | ⟨-, ht⟩ | ⟨h, hp, ⟨-, ht⟩ | ⟨-, -, ht⟩ | ⟨hdepth, hb, ht⟩⟩⟩ <;> rw [ht] at hr
  · rcases stickyResponse_cases s.cause with hc | hc <;> simp [hc] at hr
  · cases hr
  · cases hr
  · cases hr
  · cases hr
  · cases hr
  · cases hr
    rw [exceedsDepth_eq_not_withinDepth, Bool.not_eq_false'] at hdepth
    exact ⟨h, hp, hdepth, hb, rfl, rfl, ht⟩

/-- Settles O26: the one case in which TAKE returns a packet, with the bounds of its header. -/
theorem consumedBytesAreTheFrame : Obligations.ConsumedBytesAreTheFrame := by
  intro s t p n hexec hr
  rw [exec_take] at hexec
  cases hexec
  obtain ⟨h, hp, hdepth, hb, rfl, rfl, ht⟩ := takeWith_of_okPacket hr
  obtain ⟨hhl, hplen⟩ := parseHeader_lengths hp
  have hpayload := packet_payload_length hb
  have hmin := five_le_headerLength (s.buf.headD 0)
  have hmax := headerLength_le_ten (s.buf.headD 0)
  have htotal : h.total = headerLength (s.buf.headD 0) + h.plen := by rw [← hhl]; rfl
  refine ⟨decide_eq_true ?_, ?_, ?_, hdepth, ?_, by rw [ht]; rfl, hb⟩ <;> omega

/-! ## The frame sequence of a stream -/

/-- A bound of at least the number of bytes is never reached: a frame has at least 5 of them. -/
theorem frameSeqUpTo_eq_of_le {k j : Nat} {b : Bytes} (hk : b.length ≤ k) (hj : b.length ≤ j) :
    frameSeqUpTo k b = frameSeqUpTo j b := by
  induction k generalizing j b with
  | zero =>
    obtain rfl : b = [] := List.length_eq_zero_iff.1 (Nat.le_zero.1 hk)
    cases j <;> rfl
  | succ k ih =>
    cases j with
    | zero =>
      obtain rfl : b = [] := List.length_eq_zero_iff.1 (Nat.le_zero.1 hj)
      rfl
    | succ j =>
      cases hd : decodeFrame b with
      | frame p n =>
        have hn := (decodeFrame_consumed hd).1
        have hrest : frameSeqUpTo k (b.drop n) = frameSeqUpTo j (b.drop n) :=
          ih (by rw [List.length_drop]; omega) (by rw [List.length_drop]; omega)
        simp [frameSeqUpTo, hd, hrest]
      | _ => simp [frameSeqUpTo, hd]

theorem frameSeq_of_frame {b : Bytes} {p : Packet} {n : Nat} (hd : decodeFrame b = .frame p n) :
    frameSeq b = (p :: (frameSeq (b.drop n)).1, (frameSeq (b.drop n)).2) := by
  obtain ⟨hn, hb⟩ := decodeFrame_consumed hd
  obtain ⟨k, hk⟩ : ∃ k, b.length = k + 1 := ⟨b.length - 1, by omega⟩
  have hrest : frameSeqUpTo k (b.drop n) = frameSeq (b.drop n) :=
    frameSeqUpTo_eq_of_le (by rw [List.length_drop]; omega) (Nat.le_refl _)
  rw [frameSeq, hk]
  simp [frameSeqUpTo, hd, hrest]

theorem frameSeq_of_not_frame {b : Bytes} (hd : ∀ p n, decodeFrame b ≠ .frame p n) :
    frameSeq b = ([], decodeFrame b) := by
  unfold frameSeq
  cases b.length with
  | zero => rfl
  | succ k =>
    unfold frameSeqUpTo
    split
    · next p n he => exact absurd he (hd p n)
    · rfl

/-! ## A TAKE that does not answer OVERSIZE -/

/-- The fatal state, where the block is in it, was entered for a wrong magic, and the queue still shows it (R106). -/
def State.BadMagicIfFatal (s : State) : Prop :=
  s.fatal = true → s.cause = codeBadMagic ∧ parseHeader s.buf = .badMagic

theorem State.BadMagicIfFatal.of_not_fatal {s : State} (h : s.fatal = false) : s.BadMagicIfFatal :=
  fun hf => absurd (h.symm.trans hf) Bool.false_ne_true

/-- A PUSH does not make a wrong magic right. -/
theorem State.BadMagicIfFatal.bufAppend {s : State} (hs : s.BadMagicIfFatal) (x : Bytes) :
    (bufAppend x s).BadMagicIfFatal := fun hf =>
  ⟨(hs hf).1, parseHeader_append_of_badMagic x (hs hf).2⟩

/-- What the queue keeps once the result of `Decode` has been answered. -/
def DecodeResult.remaining : DecodeResult → Bytes → Bytes
  | .frame _ n, b => b.drop n
  | _, b => b

/-- Apart from OVERSIZE, TAKE answers what `Decode` makes of the queue, in the fatal state too, and removes the decoded
frame if there is one. -/
theorem take_of_not_oversize {s : State} (hs : s.BadMagicIfFatal)
    (hr : (takeWith parseHeader s).rsp ≠ some .oversize) :
    (takeWith parseHeader s).rsp = some (decodeFrame s.buf).response ∧
      (takeWith parseHeader s).buf = (decodeFrame s.buf).remaining s.buf ∧
      (takeWith parseHeader s).BadMagicIfFatal := by
  rcases takeWith_cases parseHeader s with ⟨hf, ht⟩ |
    ⟨hf, ⟨hp, ht⟩ | ⟨hp, ht⟩ | ⟨hp, ht⟩ | ⟨h, hp, ⟨-, ht⟩ | ⟨-, hb, ht⟩ | ⟨-, hb, ht⟩⟩⟩ <;> rw [ht] at hr ⊢
  · obtain ⟨hc, hp⟩ := hs hf
    rw [(decodeFrame_eq_badMagic s.buf).2 hp, hc]
    exact ⟨rfl, rfl, hs⟩
  · have hd : decodeFrame s.buf = .short := by simp [decodeFrame, hp, decodeAfter]
    rw [hd]
    exact ⟨rfl, rfl, hs⟩
  · rw [(decodeFrame_eq_badMagic s.buf).2 hp]
    exact ⟨rfl, rfl, fun _ => ⟨rfl, hp⟩⟩
  · have hd : decodeFrame s.buf = .incomplete := by simp [decodeFrame, hp, decodeAfter]
    rw [hd]
    exact ⟨rfl, rfl, hs⟩
  · exact absurd rfl hr
  · have hd : decodeFrame s.buf = .incomplete := by simp [decodeFrame, hp, decodeAfter, hb]
    rw [hd]
    exact ⟨rfl, rfl, hs⟩
  · rw [(decodeFrame_eq_frame s.buf _ _).2 ⟨h, hp, hb, rfl, rfl⟩]
    exact ⟨rfl, rfl, .of_not_fatal hf⟩

/-- The answer to a result of `Decode` carries the packet of the frame, if there is one. -/
theorem DecodeResult.packet?_response_eq_none {d : DecodeResult} :
    d.response.packet? = none ↔ ∀ p n, d ≠ .frame p n := by
  cases d <;> simp [DecodeResult.response, Response.packet?]

/-- One TAKE takes the first packet off the frame sequence, whatever bytes follow those in the queue. -/
theorem frameSeq_append_eq_cons (b x : Bytes) :
    frameSeq (b ++ x) =
      ((decodeFrame b).response.packet?.toList ++ (frameSeq ((decodeFrame b).remaining b ++ x)).1,
        (frameSeq ((decodeFrame b).remaining b ++ x)).2) := by
  cases hd : decodeFrame b with
  | frame p n =>
    rw [frameSeq_of_frame (decodeFrame_append_of_frame x hd),
      List.drop_append_of_le_length (decodeFrame_consumed hd).2]
    rfl
  | _ => rfl

/-! ## Interleavings of PUSH and TAKE -/

theorem issue_take (s : State) : issue .take s = takeWith parseHeader s := rfl

theorem packetsOf_cons (r : Option Response) (rs : List (Option Response)) :
    packetsOf (r :: rs) = (r.bind Response.packet?).toList ++ packetsOf rs := by
  unfold packetsOf
  rw [List.filterMap_cons]
  cases r.bind Response.packet? <;> rfl

theorem responses_append_singleton (is : List Instr) (i : Instr) (s : State) :
    responses (is ++ [i]) s = responses is s ++ [(issue i (issueAll is s)).rsp] := by
  induction is generalizing s with
  | nil => rfl
  | cons j is ih => exact congrArg _ (ih (issue j s))

theorem issueAll_append_singleton (is : List Instr) (i : Instr) (s : State) :
    issueAll (is ++ [i]) s = issue i (issueAll is s) := by
  simp [issueAll]

/-- The invariant of R37, from any queue on: the frame sequence of what the queue held and was given since is the
packets already returned, followed by the frame sequence of what the queue holds now. -/
theorem frameSeq_of_interleaving (is : List Instr) (s : State) (his : ∀ i ∈ is, isPushOrTake i = true)
    (hs : s.BadMagicIfFatal) (hr : ∀ r ∈ responses is s, r ≠ some .oversize) :
    (issueAll is s).BadMagicIfFatal ∧
      frameSeq (s.buf ++ acceptedBytes is s) =
        (packetsOf (responses is s) ++ (frameSeq (issueAll is s).buf).1, (frameSeq (issueAll is s).buf).2) := by
  induction is generalizing s with
  | nil => exact ⟨hs, by rw [acceptedBytes, List.append_nil]; rfl⟩
  | cons i is ih =>
    obtain ⟨hi, his'⟩ := List.forall_mem_cons.1 his
    obtain ⟨hri, hr'⟩ := List.forall_mem_cons.1 hr
    cases i with
    | push chunk =>
      obtain ⟨hs', hseq⟩ := ih (issue (.push chunk) s) his' (hs.bufAppend _) hr'
      refine ⟨hs', ?_⟩
      rw [acceptedBytes, ← List.append_assoc]
      exact hseq
    | take =>
      rw [issue_take] at hri
      obtain ⟨hrsp, hbuf, hnext⟩ := take_of_not_oversize hs hri
      obtain ⟨hs', hseq⟩ := ih (issue .take s) his' hnext hr'
      refine ⟨hs', ?_⟩
      rw [issue_take, hbuf] at hseq
      have hacc : acceptedBytes (.take :: is) s = acceptedBytes is (takeWith parseHeader s) := rfl
      have hpackets : packetsOf (responses (.take :: is) s) =
          (decodeFrame s.buf).response.packet?.toList ++ packetsOf (responses is (takeWith parseHeader s)) := by
        rw [responses, packetsOf_cons, issue_take, hrsp]
        rfl
      rw [hacc, frameSeq_append_eq_cons, hseq, hpackets, List.append_assoc]
      rfl
    | _ => cases hi

/-- Settles O30: the invariant gives the prefix; a further TAKE that returns no packet finds none at the head of the
queue, so nothing is left of the sequence. -/
theorem chunkingIndependence : Obligations.ChunkingIndependence := by
  intro is s his hbuf hf hr
  obtain ⟨ht, hseq⟩ := frameSeq_of_interleaving is s his (.of_not_fatal hf) hr
  rw [hbuf, List.nil_append] at hseq
  rw [hseq]
  refine ⟨List.prefix_append _ _, ?_⟩
  rw [responses_append_singleton, issueAll_append_singleton, issue_take]
  intro hr' hnone
  obtain ⟨hrsp, -, -⟩ := take_of_not_oversize ht (hr' _ (by simp))
  have hend := hnone
  rw [hrsp, Option.bind_some, DecodeResult.packet?_response_eq_none] at hend
  rw [frameSeq_of_not_frame hend]
  exact ⟨by simp [packetsOf, hnone], hrsp⟩

end Sys2Proof.Machine
end

section
/-! PROOFS. The two encodings (spec/30_encoding.md): the command word (R64, R65), the header byte and its form
(R50, R62), and that decoding undoes encoding. -/

namespace Sys2Proof

/-! ## The command word (R64) -/

@[simp] theorem cmdOp_cmdWord (op : BitVec 3) : cmdOp (cmdWord op) = op := by revert op; decide

@[simp] theorem cmdRsv_cmdWord (op : BitVec 3) : cmdRsv (cmdWord op) = 0 := by revert op; decide

theorem cmdOp_toNat (w : Byte) : (cmdOp w).toNat = w.toNat % 8 := by simp [cmdOp]

theorem cmdRsv_toNat (w : Byte) : (cmdRsv w).toNat = w.toNat / 8 := by
  have hw := w.isLt
  simp [cmdRsv, Nat.shiftRight_eq_div_pow]
  omega

theorem decode_of_pushWord {t : Transaction} (h : t.word = cmdWord opPush) :
    decode (.command t) = .ok (.push t.chunk) := by
  simp [decode, decodeCommand, h]

theorem decode_of_takeWord {t : Transaction} (h : t.word = cmdWord opTake) : decode (.command t) = .ok .take := by
  simp [decode, decodeCommand, h]

theorem decode_of_encodeWord {t : Transaction} (h : t.word = cmdWord opEncode) :
    decode (.command t) = .ok (.encode t.type t.rid t.payload) := by
  simp [decode, decodeCommand, h]

theorem decode_of_queryWord {t : Transaction} (h : t.word = cmdWord opQuery) : decode (.command t) = .ok .query := by
  simp [decode, decodeCommand, h]

theorem decode_of_clearWord {t : Transaction} (h : t.word = cmdWord opClear) : decode (.command t) = .ok .clear := by
  simp [decode, decodeCommand, h]

/-- The transactions that carry no command (R66), in numbers. -/
theorem decode_of_reserved {t : Transaction}
    (h : t.word.toNat % 8 = 0 ∨ t.word.toNat % 8 = 5 ∨ t.word.toNat % 8 = 6 ∨ t.word.toNat / 8 ≠ 0) :
    decode (.command t) = .error (.reserved t.word) := by
  by_cases hrsv : cmdRsv t.word = 0
  · have hhigh : t.word.toNat / 8 = 0 := by rw [← cmdRsv_toNat, hrsv]; rfl
    have hop : ∀ op : BitVec 3, op.toNat ≠ 0 → op.toNat ≠ 5 → op.toNat ≠ 6 → cmdOp t.word ≠ op := by
      rintro op h0 h5 h6 rfl
      rw [cmdOp_toNat] at h0 h5 h6
      omega
    have hpush := hop opPush (by decide) (by decide) (by decide)
    have htake := hop opTake (by decide) (by decide) (by decide)
    have hencode := hop opEncode (by decide) (by decide) (by decide)
    have hquery := hop opQuery (by decide) (by decide) (by decide)
    have hclear := hop opClear (by decide) (by decide) (by decide)
    rw [decode, decodeCommand, if_neg (not_not.2 hrsv), if_neg hpush, if_neg htake, if_neg hencode, if_neg hquery,
      if_neg hclear]
  · rw [decode, decodeCommand, if_pos hrsv]

/-- Settles O51: each of the five rows by its operation code; no row looks at a field of another command. -/
theorem strayOperandFieldsAreIgnored : Obligations.StrayOperandFieldsAreIgnored := fun _ =>
  ⟨decode_of_pushWord, decode_of_takeWord, decode_of_encodeWord, decode_of_queryWord, decode_of_clearWord⟩

/-- Settles O4: the five rows hold with any operand fields, and so do the reserved ones. -/
theorem commandWordsSelectTheCommands : Obligations.CommandWordsSelectTheCommands := fun t =>
  ⟨fun _ => strayOperandFieldsAreIgnored t, decode_of_reserved⟩

/-- A word with its reserved bits clear and an operation code of the table is the word of a command (R64). -/
theorem Transaction.word_of_wordWf {t : Transaction} (h : t.wordWf = true) :
    t.word = cmdWord opPush ∨ t.word = cmdWord opTake ∨ t.word = cmdWord opEncode ∨ t.word = cmdWord opQuery ∨
      t.word = cmdWord opClear := by
  unfold Transaction.wordWf at h
  generalize t.word = w at h ⊢
  revert w
  decide

/-- Only PUSH has a chunk (R65). -/
theorem Transaction.chunk_of_operandsWf {t : Transaction} (h : t.operandsWf = true) (hw : t.word ≠ cmdWord opPush) :
    t.chunk = [] := by
  have hword : t.word ≠ 0x01 := hw
  simp only [Transaction.operandsWf, Bool.and_eq_true, Bool.or_eq_true, beq_iff_eq] at h
  exact h.1.resolve_left hword

/-- Only ENCODE has a type, a request id and a payload (R65). -/
theorem Transaction.fields_of_operandsWf {t : Transaction} (h : t.operandsWf = true)
    (hw : t.word ≠ cmdWord opEncode) : t.type = 0 ∧ t.rid = none ∧ t.payload = [] := by
  have hword : t.word ≠ 0x03 := hw
  simp only [Transaction.operandsWf, Bool.and_eq_true, Bool.or_eq_true, beq_iff_eq] at h
  exact and_assoc.1 (h.2.resolve_left hword)

/-- Settles O3: for each command word, R65 leaves exactly the operand fields that `encode` writes. -/
theorem wellFormedTransactionReencodes : Obligations.WellFormedTransactionReencodes := by
  rintro ⟨w, chunk, type, rid, payload⟩ hwf
  obtain ⟨hword, hoperands⟩ := (Bool.and_eq_true _ _).mp hwf
  have hchunk : w ≠ cmdWord opPush → chunk = [] := Transaction.chunk_of_operandsWf hoperands
  have hfields : w ≠ cmdWord opEncode → type = 0 ∧ rid = none ∧ payload = [] :=
    Transaction.fields_of_operandsWf hoperands
  obtain rfl | rfl | rfl | rfl | rfl := Transaction.word_of_wordWf hword
  · obtain ⟨rfl, rfl, rfl⟩ := hfields (by decide)
    exact ⟨_, decode_of_pushWord rfl, rfl⟩
  · obtain rfl := hchunk (by decide)
    obtain ⟨rfl, rfl, rfl⟩ := hfields (by decide)
    exact ⟨_, decode_of_takeWord rfl, rfl⟩
  · obtain rfl := hchunk (by decide)
    exact ⟨_, decode_of_encodeWord rfl, rfl⟩
  · obtain rfl := hchunk (by decide)
    obtain ⟨rfl, rfl, rfl⟩ := hfields (by decide)
    exact ⟨_, decode_of_queryWord rfl, rfl⟩
  · obtain rfl := hchunk (by decide)
    obtain ⟨rfl, rfl, rfl⟩ := hfields (by decide)
    exact ⟨_, decode_of_clearWord rfl, rfl⟩

/-! ## The header byte (R50, R62) -/

/-- Splitting a composed header byte gives its fields back (R79). -/
theorem hdrFields_hdrByte (lfl : BitVec 2) (f : Bool) (t : BitVec 5) : hdrFields (hdrByte lfl f t) = (lfl, f, t) := by
  revert lfl f t; decide

/-- Composing the fields of a header byte gives the byte back (R79). -/
theorem hdrByte_hdrFields (h : Byte) : hdrByte (hdrFields h).1 (hdrFields h).2.1 (hdrFields h).2.2 = h := by
  revert h; decide

/-- Bits 7 to 5 of a header byte are LFL and F. -/
theorem toNat_div_thirtyTwo (h : Byte) :
    h.toNat / 32 = 2 * (hdrFields h).1.toNat + (hdrFields h).2.1.toNat := by
  revert h; decide

/-- The encoding of a header form is the byte composed of its fields (R62). -/
theorem encode_headerForm (lf : LF) (f : Bool) (t : BitVec 5) :
    encode (headerForm lf f t) = .header (hdrByte (lflOfLf lf) f t) := by
  cases lf <;> cases f <;> rfl

theorem decodeHeader_hdrByte (lf : LF) (f : Bool) (t : BitVec 5) :
    decodeHeader (hdrByte (lflOfLf lf) f t) = headerForm lf f t := by
  simp [decodeHeader, hdrFields_hdrByte]

theorem decode_encode_headerForm (lf : LF) (f : Bool) (t : BitVec 5) :
    decode (encode (headerForm lf f t)) = .ok (headerForm lf f t) := by
  rw [encode_headerForm, decode, decodeHeader_hdrByte]

/-- Every header byte is the encoding of its form (R57). -/
theorem encode_decodeHeader (h : Byte) : encode (decodeHeader h) = .header h := by
  rw [decodeHeader, encode_headerForm, lflOfLf_lfOfLfl, hdrByte_hdrFields]

/-- Settles O2: a command is read back from its word and operands, a header form from its byte. -/
theorem decodeOfEncodeIsTheInstruction : Obligations.DecodeOfEncodeIsTheInstruction := by
  intro i
  cases i with
  | push chunk => exact decode_of_pushWord rfl
  | take => exact decode_of_takeWord rfl
  | encode type rid payload => exact decode_of_encodeWord rfl
  | query => exact decode_of_queryWord rfl
  | clear => exact decode_of_clearWord rfl
  | hdrL0 t => exact decode_encode_headerForm .w0 false t
  | hdrL0R t => exact decode_encode_headerForm .w0 true t
  | hdrL1 t => exact decode_encode_headerForm .w1 false t
  | hdrL1R t => exact decode_encode_headerForm .w1 true t
  | hdrL2 t => exact decode_encode_headerForm .w2 false t
  | hdrL2R t => exact decode_encode_headerForm .w2 true t
  | hdrL4 t => exact decode_encode_headerForm .w4 false t
  | hdrL4R t => exact decode_encode_headerForm .w4 true t

/-- The rows of R62's table, one for each LF and F: bits 7 to 5, LF, F and the header length of R54. -/
theorem mem_headerFormTable (lf : LF) (f : Bool) :
    (2 * (lflOfLf lf).toNat + f.toNat, lf, f, 5 + f.toNat + lf.bytes) ∈
      [(0, LF.w0, false, 5), (1, LF.w0, true, 6), (2, LF.w1, false, 6), (3, LF.w1, true, 7),
        (4, LF.w2, false, 7), (5, LF.w2, true, 8), (6, LF.w4, false, 9), (7, LF.w4, true, 10)] := by
  cases lf <;> cases f <;> decide

/-- Settles O5: the form is read off the byte's fields, which the numbers of the table are computed from. -/
theorem headerBytesNameTheirForms : Obligations.HeaderBytesNameTheirForms := by
  intro h
  refine ⟨decodeHeader h, lfOfLfl (hdrFields h).1, (hdrFields h).2.1, rfl, encode_decodeHeader h, ?_, ?_⟩
  · have htype : BitVec.ofNat 5 (h.toNat % 32) = (hdrFields h).2.2 := by
      rw [← Machine.typeOf_eq, Machine.typeOf]
      exact BitVec.eq_of_toNat_eq (by simp)
    rw [htype, decodeHeader]
  · have hrow := mem_headerFormTable (lfOfLfl (hdrFields h).1) (hdrFields h).2.1
    rw [lflOfLf_lfOfLfl, ← toNat_div_thirtyTwo, ← Machine.flagOf_eq, ← Machine.widthOf_eq] at hrow
    exact hrow

/-- Settles O1: each word written out is the encoding of the row it is listed for. -/
theorem writtenWordsDecode : Obligations.WrittenWordsDecode :=
  ⟨decode_of_pushWord rfl, decode_of_takeWord rfl, decode_of_encodeWord rfl, decode_of_queryWord rfl,
    decode_of_clearWord rfl, decode_encode_headerForm .w2 true 0x07, decode_encode_headerForm .w0 true 0x1F,
    decode_encode_headerForm .w4 true 0x00, decode_encode_headerForm .w1 false 0x18,
    decode_encode_headerForm .w4 false 0x02, decode_encode_headerForm .w2 false 0x02,
    decode_encode_headerForm .w1 true 0x03, decode_encode_headerForm .w0 false 0x05⟩

end Sys2Proof
end

section
/-! PROOFS. The header forms as TAKE runs them (spec/30_encoding.md R62; spec/41_accumulator.md R98; log 4): TAKE is the
form of the queue's first byte, and every form delivers a whole frame laid out as R47 has it. -/

namespace Sys2Proof.Machine

/-! ## TAKE is the header form of the head byte -/

/-- "All eight forms decode under one rule" (R62). -/
theorem exec_decodeHeader_of_head {h : Byte} {rest : Bytes} {s : State} (hbuf : s.buf = h :: rest) :
    exec (decodeHeader h) s = exec .take s := by
  rw [decodeHeader, exec_headerForm, lflOfLf_lfOfLfl, exec_take, takeForm]
  refine congrArg _ (takeWith_congr _ _ s ?_)
  rw [hbuf, parseHeader_cons]

/-- Settles O16: the form of the head byte parses the queue as TAKE does. -/
theorem takeRunsTheHeaderForm : Obligations.TakeRunsTheHeaderForm := fun h _ _ hbuf =>
  ⟨decodeHeader h, rfl, exec_decodeHeader_of_head hbuf⟩

/-- Settles O47: the step runs TAKE, and TAKE is the form of the head byte. -/
theorem stepRunsTheHeaderForm : Obligations.StepRunsTheHeaderForm := by
  intro t h i b rest s hword hport hbuf hdecode
  obtain rfl : decodeHeader h = i := Except.ok.inj hdecode
  have hhead : { s with port := rest }.buf = h :: b := hbuf
  rw [step_of_command hport, runTransaction_of_decode t _ .take (decode_of_takeWord hword),
    exec_decodeHeader_of_head hhead]

/-! ## Delivering a whole frame -/

/-- TAKE returns a frame that is all there and within the capacity. -/
theorem takeWith_of_whole_frame {parse : Bytes → HeaderResult} {s : State} {h : Header} (hf : s.fatal = false)
    (hp : parse s.buf = .header h) (hdepth : withinDepth h.total s.depth = true) (hb : h.total ≤ s.buf.length) :
    takeWith parse s = answer (.okPacket (h.packet s.buf) h.total) (bufDrop h.total s) := by
  simp [takeWith, hf, hp, takeParsed, exceedsDepth_eq_not_withinDepth, hdepth, decodeAfter, Nat.not_lt.2 hb, deliver]

/-- The one rule of all eight forms (R62): with a whole frame at the head of the queue, its length bytes `lb` and its
header length `hl`, the form removes it and returns its packet. -/
theorem exec_headerForm_of_frame {lf : LF} {rid : Option Byte} {t : BitVec 5} {h₀ : Byte} {lb payload rest : Bytes}
    {hl : Nat} {s : State} (hf : s.fatal = false)
    (hbuf : s.buf = h₀ :: (magic ++ (ridBytes rid ++ (lb ++ (payload ++ rest)))))
    (hlb : lb.length = lf.bytes) (hlen : payload.length = fromLE lb) (hhl : hl = 5 + rid.isSome.toNat + lf.bytes)
    (hdepth : withinDepth (hl + payload.length) s.depth = true) :
    exec (headerForm lf rid.isSome t) s =
      .next { s with
        buf := rest, rsp := some (.okPacket ⟨t, rid, payload⟩ (hl + payload.length)), tx := [] } := by
  have hparse := parseForm_layout lf rid t h₀ lb (payload ++ rest) hlb
  rw [← hbuf, ← hlen, ← hhl] at hparse
  have hparts : s.buf = (h₀ :: (magic ++ (ridBytes rid ++ lb))) ++ (payload ++ rest) := by simp [hbuf]
  have hheader : (h₀ :: (magic ++ (ridBytes rid ++ lb))).length = hl := by simp [magic, hlb, hhl]; omega
  have hpayload : slice s.buf hl payload.length = payload := by rw [hparts, slice_middle _ _ _ _ hheader]
  have hrest : s.buf.drop (hl + payload.length) = rest := by
    rw [hparts, ← hheader, List.drop_length_add_append, List.drop_left]
  have hwhole : hl + payload.length ≤ s.buf.length := by
    rw [hparts, ← hheader, List.length_append, List.length_append]
    omega
  rw [exec_headerForm, takeForm, takeWith_of_whole_frame hf hparse hdepth hwhole]
  simp only [Header.packet, Header.total, hpayload, bufDrop, hrest]
  rfl

/-- Settles O18: the rule of all forms for a length field of no bytes. -/
theorem formsWithoutLengthDeliver : Obligations.FormsWithoutLengthDeliver := by
  intro t r rest s hf
  constructor
  · intro hbuf hdepth
    exact exec_headerForm_of_frame (lf := .w0) (rid := none) (lb := []) (payload := []) hf hbuf rfl rfl rfl hdepth
  · intro hbuf hdepth
    exact exec_headerForm_of_frame (lf := .w0) (rid := some r) (lb := []) (payload := []) hf hbuf rfl rfl rfl hdepth

/-- Settles O19: the rule of all forms for one length byte. -/
theorem formsWithOneLengthByteDeliver : Obligations.FormsWithOneLengthByteDeliver := by
  intro t r n payload rest s hf hlen
  constructor
  · intro hbuf hdepth
    exact exec_headerForm_of_frame (lf := .w1) (rid := none) (lb := [n]) hf hbuf rfl hlen rfl hdepth
  · intro hbuf hdepth
    exact exec_headerForm_of_frame (lf := .w1) (rid := some r) (lb := [n]) hf hbuf rfl hlen rfl hdepth

/-- Settles O20: the rule of all forms for two length bytes. -/
theorem formsWithTwoLengthBytesDeliver : Obligations.FormsWithTwoLengthBytesDeliver := by
  intro t r n₀ n₁ payload rest s hf hlen
  constructor
  · intro hbuf hdepth
    exact exec_headerForm_of_frame (lf := .w2) (rid := none) (lb := [n₀, n₁]) hf hbuf rfl hlen rfl hdepth
  · intro hbuf hdepth
    exact exec_headerForm_of_frame (lf := .w2) (rid := some r) (lb := [n₀, n₁]) hf hbuf rfl hlen rfl hdepth

/-- Settles O21: the rule of all forms for four length bytes. -/
theorem formsWithFourLengthBytesDeliver : Obligations.FormsWithFourLengthBytesDeliver := by
  intro t r n₀ n₁ n₂ n₃ payload rest s hf hsum
  have hlen : payload.length = fromLE [n₀, n₁, n₂, n₃] := by
    simp only [fromLE]
    omega
  constructor
  · intro hbuf hdepth
    exact exec_headerForm_of_frame (lf := .w4) (rid := none) (lb := [n₀, n₁, n₂, n₃]) hf hbuf rfl hlen rfl hdepth
  · intro hbuf hdepth
    exact exec_headerForm_of_frame (lf := .w4) (rid := some r) (lb := [n₀, n₁, n₂, n₃]) hf hbuf rfl hlen rfl hdepth

/-! ## Taking an encoded packet -/

theorem natBits_31_16 (n : Nat) : natBits n 31 16 = n / 2 ^ 16 % 2 ^ 16 := by
  rw [natBits, Nat.shiftRight_eq_div_pow]

theorem natBits_15_8 (n : Nat) : natBits n 15 8 = n / 2 ^ 8 % 2 ^ 8 := by
  rw [natBits, Nat.shiftRight_eq_div_pow]

/-- The selected length field holds the length (R70, R72). -/
theorem lt_pow_lfSel {n : Nat} (h : n ≤ maxPayload) : n < 256 ^ (lfSel n).bytes := by
  have hmax : n ≤ 2 ^ 32 - 1 := h
  unfold lfSel
  rw [natBits_31_16, natBits_15_8]
  split
  · simp only [LF.bytes]
    omega
  · split
    · simp only [LF.bytes]
      omega
    · split
      · simp only [LF.bytes]
        omega
      · simp only [LF.bytes]
        omega

theorem type5_setWidth (t : BitVec 5) : type5 (t.setWidth 8) = t := by revert t; decide

/-- The layout of an encoded packet (R47, R75): its header byte is that of the form its length selects. -/
theorem encodePacket_eq (p : Packet) :
    encodePacket p =
      hdrByte (lflOfLf (lfSel p.payload.length)) p.rid.isSome p.type ::
        (magic ++ (ridBytes p.rid ++
          (bytesLE p.payload.length (lfSel p.payload.length).bytes ++ p.payload))) := by
  simp [encodePacket, encodeFrame, type5_setWidth]

theorem encodePacket_length (p : Packet) :
    (encodePacket p).length =
      5 + p.rid.isSome.toNat + (lfSel p.payload.length).bytes + p.payload.length := by
  simp [encodePacket_eq, magic]
  omega

/-- TAKE returns the packet whose encoding is at the head of the queue (R90, R98): the head byte's form delivers it. -/
theorem exec_take_of_encodePacket {p : Packet} {rest : Bytes} {s : State} (hp : p.wf = true) (hf : s.fatal = false)
    (hbuf : s.buf = encodePacket p ++ rest) (hdepth : withinDepth (encodePacket p).length s.depth = true) :
    exec .take s =
      .next { s with buf := rest, rsp := some (.okPacket p (encodePacket p).length), tx := [] } := by
  have hmax : p.payload.length ≤ maxPayload := of_decide_eq_true hp
  rw [encodePacket_eq] at hbuf
  rw [encodePacket_length] at hdepth ⊢
  rw [← exec_decodeHeader_of_head hbuf, decodeHeader_hdrByte]
  exact exec_headerForm_of_frame hf (by simpa using hbuf) (bytesLE_length _ _)
    (fromLE_bytesLE _ _ (lt_pow_lfSel hmax)).symm rfl hdepth

/-! ## LOOPBACK (R69) -/

theorem issue_of_exec {i : Instr} {s t : State} (h : exec i s = .next t) : issue i s = t := by
  simp [issue, h]

theorem issue_encode_of_wf {p : Packet} (hp : p.wf = true) (s : State) :
    issue (.encode (p.type.setWidth 8) p.rid p.payload) s = answerWith .ok (encodePacket p) s := by
  have hmax : ¬ p.payload.length > maxPayload := Nat.not_lt.2 (of_decide_eq_true hp)
  refine issue_of_exec ?_
  rw [exec_encode, if_neg hmax]
  rfl

/-- A PUSH into a queue with room for all of its chunk (R95). -/
theorem issue_push_of_room {chunk : Bytes} {s : State}
    (hroom : withinDepth (s.buf.length + chunk.length) s.depth = true) :
    issue (.push chunk) s = answer (.okAccepted chunk.length) (bufAppend chunk s) := by
  refine issue_of_exec ?_
  rw [exec_push, acceptCount_of_withinDepth _ _ _ _ hroom (Nat.le_refl _), List.take_length]

/-- Settles O31: ENCODE emits the frame, the empty queue has room for all of it, and TAKE returns it. -/
theorem loopbackReturnsThePacket : Obligations.LoopbackReturnsThePacket := by
  intro p s hp hf hbuf hdepth
  have hroom : withinDepth (s.buf.length + (encodePacket p).length) s.depth = true := by
    simpa [hbuf] using hdepth
  rw [loopback, issue_encode_of_wf hp, answerWith_tx, issue_push_of_room (s := answerWith .ok (encodePacket p) s) hroom,
    issue_of_exec (exec_take_of_encodePacket (rest := []) hp ?fatal ?queue ?depth)]
  case fatal => exact hf
  case queue => simp [hbuf]
  case depth => exact hdepth
  exact ⟨rfl, rfl, hf⟩

end Sys2Proof.Machine
end

section
/-! PROOFS. The Header Codec (spec/40_codec.md): the fields of the header byte and the length selector in numbers (R71,
R79), the bytes of a frame and that `Decode` reads exactly those (R47, R88, R90, R94), a wrong magic (R92, R93), and
ENCODE (R77, R78). -/

namespace Sys2Proof.Machine

/-! ## The header byte in numbers (R74, R79) -/

/-- H[7:6], H[5] and H[4:0] as numbers. -/
theorem hdrFields_toNat (h : Byte) :
    (hdrFields h).1.toNat = h.toNat / 64 ∧ (hdrFields h).2.1.toNat = h.toNat / 32 % 2 ∧
      (hdrFields h).2.2.toNat = h.toNat % 32 := by
  have hflag : (hdrFields h).2.1.toNat = h.toNat / 32 % 2 := (flagOf_eq h).symm
  have htop := toNat_div_thirtyTwo h
  refine ⟨by omega, hflag, ?_⟩
  rw [← typeOf_eq, typeOf, BitVec.toNat_ofNat]

/-- Settles O6: the split in numbers, and the inverse law of the header byte. -/
theorem headerSplitInvertsCompose : Obligations.HeaderSplitInvertsCompose :=
  ⟨hdrFields_toNat, hdrFields_hdrByte⟩

/-- R74's composition as a sum: the three fields do not overlap. -/
theorem hdrByte_eq_ofNat (lfl : BitVec 2) (f : Bool) (t : BitVec 5) :
    hdrByte lfl f t = BitVec.ofNat 8 (64 * lfl.toNat + (32 * f.toNat + t.toNat)) := by
  have hfields := hdrFields_toNat (hdrByte lfl f t)
  simp only [hdrFields_hdrByte] at hfields
  obtain ⟨hlfl, hf, ht⟩ := hfields
  refine BitVec.eq_of_toNat_eq ?_
  rw [BitVec.toNat_ofNat, Nat.mod_eq_of_lt] <;> omega

/-- R73: the type operand loses its bits 7 to 5. -/
theorem type5_toNat (type : Byte) : (type5 type).toNat = type.toNat % 32 := by
  rw [type5, BitVec.toNat_setWidth]

/-! ## The length selector by magnitude (R70, R71) -/

theorem lfSel_zero : lfSel 0 = .w0 := rfl

theorem lfSel_of_le_255 {n : Nat} (hpos : 1 ≤ n) (h : n ≤ 255) : lfSel n = .w1 := by
  rw [lfSel, natBits_31_16, natBits_15_8, if_neg (by omega), if_neg (by omega), if_pos (by omega)]

theorem lfSel_of_le_65535 {n : Nat} (hlow : 256 ≤ n) (h : n ≤ 65535) : lfSel n = .w2 := by
  rw [lfSel, natBits_31_16, natBits_15_8, if_neg (by omega), if_pos (by omega)]

theorem lfSel_of_le_maxPayload {n : Nat} (hlow : 65536 ≤ n) (h : n ≤ maxPayload) : lfSel n = .w4 := by
  have hmax : n ≤ 2 ^ 32 - 1 := h
  rw [lfSel, natBits_31_16, if_pos (by omega)]

/-- R71: the encoder picks the narrowest width that holds the length. -/
theorem lfSel_bytes_le {n : Nat} (w : LF) (h : n < 256 ^ w.bytes) : (lfSel n).bytes ≤ w.bytes := by
  cases w with
  | w0 =>
    obtain rfl : n = 0 := Nat.lt_one_iff.1 h
    exact Nat.le_refl 0
  | w1 =>
    have hn : n < 256 := h
    obtain rfl | hpos := Nat.eq_zero_or_pos n
    · exact Nat.zero_le 1
    · rw [lfSel_of_le_255 hpos (by omega)]
  | w2 =>
    have hn : n < 65536 := h
    obtain rfl | hpos := Nat.eq_zero_or_pos n
    · exact Nat.zero_le 2
    · by_cases hsmall : n ≤ 255
      · rw [lfSel_of_le_255 hpos hsmall]
        decide
      · rw [lfSel_of_le_65535 (by omega) (by omega)]
  | w4 => cases lfSel n <;> decide

/-- Settles O7: the four ranges of R71, the narrowest width, and that this width holds the length. -/
theorem lengthSelectorByMagnitude : Obligations.LengthSelectorByMagnitude := by
  intro n hmax
  refine ⟨?_, ?_, ?_, ?_, lfSel_bytes_le, fromLE_bytesLE n _ (lt_pow_lfSel hmax)⟩
  · rintro rfl
    exact ⟨lfSel_zero, rfl⟩
  · rintro ⟨hlow, hhigh⟩
    rw [lfSel_of_le_255 hlow hhigh]
    exact ⟨rfl, rfl⟩
  · rintro ⟨hlow, hhigh⟩
    rw [lfSel_of_le_65535 hlow hhigh]
    exact ⟨rfl, rfl⟩
  · intro hlow
    rw [lfSel_of_le_maxPayload hlow hmax]
    exact ⟨rfl, rfl⟩

/-! ## The bytes of a frame (R47, R76) -/

/-- The header bytes of a frame with length bytes `lb` of width `lf`: header byte, magic, request id, length (R47). -/
def headerBytes (lf : LF) (lb : Bytes) (rid : Option Byte) (t : BitVec 5) : Bytes :=
  hdrByte (lflOfLf lf) rid.isSome t :: (magic ++ (ridBytes rid ++ lb))

/-- The bytes of a frame of `p` with length bytes `lb` of width `lf`, canonical or not (R47, R59). -/
def frameBytes (lf : LF) (lb : Bytes) (p : Packet) : Bytes :=
  headerBytes lf lb p.rid p.type ++ p.payload

theorem headerBytes_length {lf : LF} {lb : Bytes} (rid : Option Byte) (t : BitVec 5) (hlb : lb.length = lf.bytes) :
    (headerBytes lf lb rid t).length = 5 + rid.isSome.toNat + lf.bytes := by
  simp [headerBytes, magic, hlb]
  omega

theorem frameBytes_length {lf : LF} {lb : Bytes} (p : Packet) (hlb : lb.length = lf.bytes) :
    (frameBytes lf lb p).length = 5 + p.rid.isSome.toNat + lf.bytes + p.payload.length := by
  rw [frameBytes, List.length_append, headerBytes_length _ _ hlb]

/-- The encoder's frame is the one whose length field is canonical (R71, R75). -/
theorem encodePacket_eq_frameBytes (p : Packet) :
    encodePacket p =
      frameBytes (lfSel p.payload.length) (bytesLE p.payload.length (lfSel p.payload.length).bytes) p := by
  simp [encodePacket_eq, frameBytes, headerBytes]

/-- ENCODE of any type operand builds the frame of the type's low 5 bits (R73). -/
theorem encodeFrame_eq_encodePacket (type : Byte) (rid : Option Byte) (payload : Bytes) :
    encodeFrame type rid payload = encodePacket ⟨type5 type, rid, payload⟩ := by
  simp [encodePacket, encodeFrame, type5_setWidth]

/-- Settles O8: ENCODE's frame is that of a packet, whose parts have these lengths. -/
theorem encodedFrameLength : Obligations.EncodedFrameLength := by
  intro type rid payload
  rw [encodeFrame_eq_encodePacket, encodePacket_length]

/-! ## `Decode` of the bytes of a frame (R90) -/

theorem parseHeader_headerBytes_append {lf : LF} {lb : Bytes} (rid : Option Byte) (t : BitVec 5) (x : Bytes)
    (hlb : lb.length = lf.bytes) :
    parseHeader (headerBytes lf lb rid t ++ x) =
      .header ⟨lflOfLf lf, rid.isSome, t, rid, lf, fromLE lb, (headerBytes lf lb rid t).length⟩ := by
  have hbytes : headerBytes lf lb rid t ++ x =
      hdrByte (lflOfLf lf) rid.isSome t :: (magic ++ (ridBytes rid ++ (lb ++ x))) := by simp [headerBytes]
  rw [hbytes, parseHeader_cons, hdrFields_hdrByte, headerBytes_length rid t hlb]
  exact parseForm_layout lf rid t _ lb x hlb

/-- A frame at the head of the queue is decoded, whatever its width and whatever bytes follow it. -/
theorem decodeFrame_frameBytes_append {lf : LF} {lb : Bytes} {p : Packet} (x : Bytes) (hlb : lb.length = lf.bytes)
    (hlen : fromLE lb = p.payload.length) :
    decodeFrame (frameBytes lf lb p ++ x) = .frame p (frameBytes lf lb p).length := by
  rw [decodeFrame_eq_frame, frameBytes, List.append_assoc]
  refine ⟨_, parseHeader_headerBytes_append p.rid p.type (p.payload ++ x) hlb, ?_, ?_, ?_⟩
  · simp [Header.total, hlen]
  · simp [Header.packet, hlen, slice_middle]
  · simp [Header.total, hlen]

/-- R90: the length bytes of an encoded packet give the length of its payload back, so it is a frame. -/
theorem decodeFrame_encodePacket_append {p : Packet} (x : Bytes) (hp : p.wf = true) :
    decodeFrame (encodePacket p ++ x) = .frame p (encodePacket p).length := by
  have hmax : p.payload.length ≤ maxPayload := of_decide_eq_true hp
  rw [encodePacket_eq_frameBytes]
  exact decodeFrame_frameBytes_append x (bytesLE_length _ _) (fromLE_bytesLE _ _ (lt_pow_lfSel hmax))

/-! ## A wrong magic (R81, R92, R93) -/

/-- Four bytes other than the magic behind the first byte are a wrong magic, whatever stands around them. -/
theorem decodeFrame_of_wrong_magic {m : Bytes} (h : Byte) (x : Bytes) (hlen : m.length = 4) (hm : m ≠ magic) :
    decodeFrame (h :: (m ++ x)) = .badMagic := by
  have hslice : slice (h :: (m ++ x)) 1 4 = m := by
    rw [← hlen]
    exact slice_middle [h] m x 1 rfl
  rw [decodeFrame_eq_badMagic, parseHeader_eq_badMagic, magicOK, hslice]
  refine ⟨?_, beq_eq_false_iff_ne.2 hm⟩
  rw [List.length_cons, List.length_append]
  omega

/-- Settles O9: an encoded packet is a frame; with the request id first, the magic starts one byte too late. -/
theorem decodeUndoesEncode : Obligations.DecodeUndoesEncode := by
  refine ⟨fun p x hp => decodeFrame_encodePacket_append x hp, fun h r rest => ?_⟩
  have hshifted : [r, 0x58, 0x52, 0x32] ≠ magic := by simp [magic]
  exact decodeFrame_of_wrong_magic h (0x4B :: rest) rfl hshifted

/-- Settles O12: replacing byte `i` of the frame replaces byte `i - 1` of the magic, and the first 5 bytes hold all
of it. -/
theorem corruptedMagicIsBadMagic : Obligations.CorruptedMagicIsBadMagic := by
  intro p i v _ hlow hhigh hv
  obtain ⟨j, rfl⟩ : ∃ j, i = j + 1 := ⟨i - 1, by omega⟩
  have hj : j < magic.length := by simp only [magic, List.length_cons, List.length_nil]; omega
  have hlen : (magic.set j v).length = 4 := List.length_set
  have hm : magic.set j v ≠ magic := by
    intro heq
    rw [Nat.add_sub_cancel, ← heq, List.getElem?_set_self hj] at hv
    exact hv rfl
  rw [encodePacket_eq, List.set_cons_succ, List.set_append_left _ _ hj]
  refine ⟨decodeFrame_of_wrong_magic _ _ hlen hm, fun k hk => ?_⟩
  obtain ⟨k, rfl⟩ : ∃ m, k = (magic.set j v).length + m + 1 := ⟨k - 5, by omega⟩
  rw [List.take_succ_cons, List.take_length_add_append]
  exact decodeFrame_of_wrong_magic _ _ hlen hm

/-- `Decode` finds SHORT exactly when `ParseHeader` does. -/
theorem decodeFrame_eq_short (b : Bytes) : decodeFrame b = .short ↔ parseHeader b = .short := by
  rw [decodeFrame]
  cases parseHeader b with
  | header h => by_cases hl : b.length < h.total <;> simp [decodeAfter, hl]
  | _ => simp [decodeAfter]

/-- Settles O11: more bytes leave a wrong magic wrong, for `ParseHeader` and so for `Decode`. -/
theorem wrongMagicStaysWrong : Obligations.WrongMagicStaysWrong := by
  refine ⟨fun b x hp => ?_, fun b => (decodeFrame_eq_short b).trans (parseHeader_eq_short b)⟩
  have hwrong := parseHeader_append_of_badMagic x hp
  exact ⟨hwrong, (decodeFrame_eq_badMagic _).2 hwrong⟩

/-- Settles O10: what was read lies inside the bytes that were there. -/
theorem decodingIsStableUnderMoreBytes : Obligations.DecodingIsStableUnderMoreBytes :=
  ⟨fun _ x _ _ hd => decodeFrame_append_of_frame x hd, fun _ x _ hp => parseHeader_append_of_header x hp⟩

/-! ## The bytes that `Decode` has read (R83 to R88) -/

/-- What stands at offset `i` is the slice of `n` bytes there and what stands behind that. -/
theorem drop_eq_slice_append (b : Bytes) (i n : Nat) : b.drop i = slice b i n ++ b.drop (i + n) := by
  rw [slice, ← List.drop_drop, List.take_append_drop]

theorem drop_of_magicOK {b : Bytes} (h : magicOK b = true) : b.drop 1 = magic ++ b.drop 5 := by
  rw [drop_eq_slice_append b 1 4, eq_of_beq h]

/-- The request id that was read stands behind the magic (R83). -/
theorem drop_of_readRid {f : Bool} {b : Bytes} {r : Option Byte} (h : readRid f b = some r) :
    r.isSome = f ∧ b.drop 5 = ridBytes r ++ b.drop (5 + f.toNat) := by
  rcases (readRid_eq_some f b r).1 h with ⟨rfl, rfl⟩ | ⟨rfl, x, hx, rfl⟩
  · exact ⟨rfl, rfl⟩
  · obtain ⟨hlen, rfl⟩ := List.getElem?_eq_some_iff.1 hx
    exact ⟨rfl, List.drop_eq_getElem_cons hlen⟩

/-- The length that was read stands behind the request id, in as many bytes as its width says (R84). -/
theorem slice_of_readLength {f : Bool} {w : LF} {b : Bytes} {n : Nat} (h : readLength f w b = some n) :
    (slice b (5 + f.toNat) w.bytes).length = w.bytes ∧ fromLE (slice b (5 + f.toNat) w.bytes) = n := by
  rcases (readLength_eq_some f w b n).1 h with ⟨rfl, rfl⟩ | ⟨-, hlen, rfl⟩
  · exact ⟨rfl, rfl⟩
  · exact ⟨slice_length b _ _ hlen, rfl⟩

/-- A parsed header is what the header bytes of a frame say, for the length bytes that it was read from. -/
theorem eq_headerBytes_append_of_parseHeader {b : Bytes} {h : Header} (hp : parseHeader b = .header h) :
    ∃ lb, lb.length = h.lf.bytes ∧ fromLE lb = h.plen ∧
      b = headerBytes h.lf lb h.rid h.type ++ b.drop h.hl := by
  cases b with
  | nil => cases hp
  | cons h₀ rest =>
    rw [parseHeader_cons, parseForm_eq_header] at hp
    obtain ⟨-, hmagic, rid, plen, hrid, hplen, rfl⟩ := hp
    obtain ⟨hf, hafterMagic⟩ := drop_of_readRid hrid
    obtain ⟨hlb, hvalue⟩ := slice_of_readLength hplen
    have hhead : hdrByte (lflOfLf (lfOfLfl (hdrFields h₀).1)) rid.isSome (hdrFields h₀).2.2 = h₀ := by
      rw [lflOfLf_lfOfLfl, hf, hdrByte_hdrFields]
    have hrest : rest = magic ++ (h₀ :: rest).drop 5 := drop_of_magicOK hmagic
    refine ⟨_, hlb, hvalue, ?_⟩
    simp only [headerBytes, hhead, List.cons_append, List.append_assoc]
    rw [← drop_eq_slice_append, ← hafterMagic, ← hrest]

/-- The bytes a decoded frame was read from are the bytes of a frame of its packet. -/
theorem take_eq_frameBytes_of_decodeFrame {b : Bytes} {p : Packet} {n : Nat} (hd : decodeFrame b = .frame p n) :
    ∃ lf lb, lb.length = lf.bytes ∧ fromLE lb = p.payload.length ∧ b.take n = frameBytes lf lb p := by
  obtain ⟨h, hp, hb, rfl, rfl⟩ := (decodeFrame_eq_frame b p n).1 hd
  obtain ⟨lb, hlb, hvalue, hbytes⟩ := eq_headerBytes_append_of_parseHeader hp
  refine ⟨h.lf, lb, hlb, hvalue.trans (packet_payload_length hb).symm, ?_⟩
  rw [drop_eq_slice_append b h.hl h.plen, ← List.append_assoc] at hbytes
  exact List.append_cancel_right ((List.take_append_drop h.total b).trans hbytes)

/-! ## Re-encoding (R94) -/

/-- The header byte of a frame shows the width of its length field. -/
theorem hdrFields_fst_of_cons_eq_frameBytes {h : Byte} {rest lb : Bytes} {lf : LF} {p : Packet}
    (hbytes : h :: rest = frameBytes lf lb p) : (hdrFields h).1 = lflOfLf lf := by
  obtain rfl : h = hdrByte (lflOfLf lf) p.rid.isSome p.type := (List.cons.inj hbytes).1
  rw [hdrFields_hdrByte]

/-- In a frame with the canonical width there is one spelling of the length, which is the encoder's. -/
theorem frameBytes_eq_encodePacket {lb : Bytes} {p : Packet} (hlb : lb.length = (lfSel p.payload.length).bytes)
    (hlen : fromLE lb = p.payload.length) : frameBytes (lfSel p.payload.length) lb p = encodePacket p := by
  rw [encodePacket_eq_frameBytes, ← hlb, ← hlen, bytesLE_fromLE, hlen]

/-- A frame whose width is not the canonical one is longer than the encoder's, which has the narrowest width. -/
theorem encodePacket_length_lt {lf : LF} {lb : Bytes} {p : Packet} (hlb : lb.length = lf.bytes)
    (hlen : fromLE lb = p.payload.length) (hlf : lf ≠ lfSel p.payload.length) :
    (encodePacket p).length < (frameBytes lf lb p).length := by
  have hfits : p.payload.length < 256 ^ lf.bytes := by
    rw [← hlen, ← hlb]
    exact fromLE_lt lb
  have hnarrow := lfSel_bytes_le lf hfits
  have hdiff : lf.bytes ≠ (lfSel p.payload.length).bytes := fun heq => hlf (lf_bytes_injective _ _ heq)
  rw [encodePacket_length, frameBytes_length p hlb]
  omega

/-- A length field has at most four bytes, so a decoded packet can be encoded again (R56, R72). -/
theorem wf_of_decodeFrame {b : Bytes} {p : Packet} {n : Nat} (hd : decodeFrame b = .frame p n) : p.wf = true := by
  obtain ⟨h, hp, hb, rfl, -⟩ := (decodeFrame_eq_frame b p n).1 hd
  refine decide_eq_true ?_
  rw [packet_payload_length hb]
  exact (parseHeader_lengths hp).2

/-- Settles O13: the bytes that were read are a frame of the packet, and it is the encoder's when its width is. -/
theorem reencodingIffCanonical : Obligations.ReencodingIffCanonical := by
  intro h rest p n hd
  obtain ⟨hfive, hn⟩ := decodeFrame_consumed hd
  obtain ⟨lf, lb, hlb, hlen, hbytes⟩ := take_eq_frameBytes_of_decodeFrame hd
  obtain ⟨m, rfl⟩ : ∃ m, n = m + 1 := ⟨n - 1, by omega⟩
  have hlfl : (hdrFields h).1 = lflOfLf lf := hdrFields_fst_of_cons_eq_frameBytes (rest := rest.take m) hbytes
  have hlength : (frameBytes lf lb p).length = m + 1 := by rw [← hbytes, List.length_take_of_le hn]
  refine ⟨⟨fun hencode => ?_, fun hcanonical => ?_⟩, fun hcanonical => ⟨?_, ?_⟩⟩
  · rw [encodePacket_eq_frameBytes] at hencode
    exact hdrFields_fst_of_cons_eq_frameBytes (rest := rest.take m) hencode.symm
  · obtain rfl : lf = lfSel p.payload.length := by
      rw [← lfOfLfl_lflOfLf lf, ← hlfl, hcanonical, lfOfLfl_lflOfLf]
    rw [hbytes, frameBytes_eq_encodePacket hlb hlen]
  · rw [← hlength]
    refine encodePacket_length_lt hlb hlen fun hlf => hcanonical ?_
    rw [hlfl, hlf]
  · simpa using decodeFrame_encodePacket_append [] (wf_of_decodeFrame hd)

/-! ## ENCODE (R77, R78) -/

/-- `LE(n, k)` as the list of its bytes (R12). -/
theorem bytesLE_eq_map_range (n k : Nat) :
    bytesLE n k = (List.range k).map fun i => BitVec.ofNat 8 (n / 256 ^ i) := by
  refine List.ext_getElem (by simp) fun i hi _ => ?_
  rw [bytesLE_getElem n k i hi, List.getElem_map, List.getElem_range]

theorem ridBytes_eq_toList (rid : Option Byte) : ridBytes rid = rid.toList := by cases rid <;> rfl

/-- The frame that ENCODE emits with a length field of width `lf`, in numbers (R73 to R75). -/
theorem encodeFrame_of_lfSel {type : Byte} {rid : Option Byte} {payload : Bytes} {lf : LF}
    (hlf : lfSel payload.length = lf) :
    encodeFrame type rid payload =
      [BitVec.ofNat 8 (64 * (lflOfLf lf).toNat + (32 * rid.isSome.toNat + type.toNat % 32)), 0x58, 0x52, 0x32, 0x4B] ++
        rid.toList ++ (List.range lf.bytes).map (fun i => BitVec.ofNat 8 (payload.length / 256 ^ i)) ++ payload := by
  rw [encodeFrame, hlf, hdrByte_eq_ofNat, type5_toNat, ridBytes_eq_toList, bytesLE_eq_map_range]
  rfl

/-- Settles O14: the five cases of the selector, each with the frame of its width. -/
theorem encodeEmitsTheFrame : Obligations.EncodeEmitsTheFrame := by
  refine ⟨fun t _ hword => decode_of_encodeWord hword, ?_⟩
  intro type rid payload s n low frame byte
  rw [exec_encode]
  refine congrArg _ ?_
  by_cases hlarge : n > 2 ^ 32 - 1
  · rw [if_pos hlarge, if_pos hlarge]
    rfl
  rw [if_neg hlarge, if_neg hlarge]
  have hmax : n ≤ maxPayload := Nat.le_of_not_lt hlarge
  by_cases hzero : n = 0
  · have hlf : lfSel n = .w0 := by rw [hzero, lfSel_zero]
    rw [if_pos hzero, encodeFrame_of_lfSel hlf]
    rfl
  rw [if_neg hzero]
  by_cases hone : n ≤ 255
  · rw [if_pos hone, encodeFrame_of_lfSel (lfSel_of_le_255 (Nat.pos_of_ne_zero hzero) hone)]
    rfl
  rw [if_neg hone]
  by_cases htwo : n ≤ 65535
  · rw [if_pos htwo, encodeFrame_of_lfSel (lfSel_of_le_65535 (Nat.lt_of_not_le hone) htwo)]
    rfl
  · rw [if_neg htwo, encodeFrame_of_lfSel (lfSel_of_le_maxPayload (Nat.lt_of_not_le htwo) hmax)]
    rfl

/-- Settles O15: ENCODE's answer and its bytes are a function of its operands. -/
theorem encodeIgnoresTheState : Obligations.EncodeIgnoresTheState := by
  intro type rid payload s₁ s₂
  refine ⟨_, _, exec_encode type rid payload s₁, exec_encode type rid payload s₂, ?_⟩
  by_cases hlarge : payload.length > maxPayload
  · simp only [if_pos hlarge]
    exact ⟨rfl, rfl, fun hfits => absurd hlarge (Nat.not_lt.2 hfits), rfl, rfl, rfl⟩
  · simp only [if_neg hlarge]
    exact ⟨rfl, rfl, fun _ => rfl, rfl, rfl, rfl⟩

end Sys2Proof.Machine
end

section
/-! PROOFS. The Frame Accumulator (spec/41_accumulator.md): the fault that stays explained (R106, R111), what QUERY,
CLEAR and a reserved word do (R102 to R104), and PUSH in pieces (R95, R96). -/

namespace Sys2Proof.Machine

/-! ## The fatal state stays explained (R106, R111) -/

/-- What `faultExplained` says, condition by condition. -/
theorem faultExplained_iff (s : State) :
    s.faultExplained = true ↔
      s.fatal = false ∨ (s.cause = codeBadMagic ∧ parseHeader s.buf = .badMagic) ∨
        (s.cause = codeOversize ∧ ∃ h, parseHeader s.buf = .header h ∧ exceedsDepth h.total s.depth = true) := by
  unfold State.faultExplained
  cases hf : s.fatal with
  | false => simp
  | true =>
    by_cases hc : s.cause = 3#8
    · simp [hc]
    · cases hp : parseHeader s.buf with
      | header h => simp [hc]
      | _ => simp [hc]

/-- The five commands of the port `cmd`: no transaction carries a header form (R50, R64). -/
theorem command_of_decode {t : Transaction} {i : Instr} (h : decode (.command t) = .ok i) :
    (∃ chunk, i = .push chunk) ∨ i = .take ∨ (∃ type rid payload, i = .encode type rid payload) ∨ i = .query ∨
      i = .clear := by
  simp only [decode, decodeCommand] at h
  split at h
  · cases h
  split at h
  · exact .inl ⟨t.chunk, (Except.ok.inj h).symm⟩
  split at h
  · exact .inr (.inl (Except.ok.inj h).symm)
  split at h
  · exact .inr (.inr (.inl ⟨t.type, t.rid, t.payload, (Except.ok.inj h).symm⟩))
  split at h
  · exact .inr (.inr (.inr (.inl (Except.ok.inj h).symm)))
  split at h
  · exact .inr (.inr (.inr (.inr (Except.ok.inj h).symm)))
  · cases h

/-- A PUSH in the fatal state hides neither a wrong magic nor a header once read (R91, R92). -/
theorem faultExplained_bufAppend {s : State} (hs : s.faultExplained = true) (x : Bytes) :
    (bufAppend x s).faultExplained = true := by
  rw [faultExplained_iff] at hs ⊢
  rcases hs with hf | ⟨hc, hp⟩ | ⟨hc, h, hp, hd⟩
  · exact .inl hf
  · exact .inr (.inl ⟨hc, parseHeader_append_of_badMagic x hp⟩)
  · exact .inr (.inr ⟨hc, h, parseHeader_append_of_header x hp, hd⟩)

/-- TAKE enters the fatal state for what it has just parsed, keeps the queue while it is in it, and consumes a frame
only outside it. -/
theorem faultExplained_take {s : State} (hs : s.faultExplained = true) :
    (takeWith parseHeader s).faultExplained = true := by
  rcases takeWith_cases parseHeader s with ⟨-, ht⟩ |
    ⟨hf, ⟨-, ht⟩ | ⟨hp, ht⟩ | ⟨-, ht⟩ | ⟨h, hp, ⟨hd, ht⟩ | ⟨-, -, ht⟩ | ⟨-, -, ht⟩⟩⟩ <;> rw [ht]
  · exact hs
  · exact hs
  · exact (faultExplained_iff _).2 (.inr (.inl ⟨rfl, hp⟩))
  · exact hs
  · exact (faultExplained_iff _).2 (.inr (.inr ⟨rfl, h, hp, hd⟩))
  · exact hs
  · exact faultExplained_of_not_fatal _ hf

theorem faultExplained_runTransaction {s t : State} {w : Transaction} (hs : s.faultExplained = true)
    (h : runTransaction w s = .next t) : t.faultExplained = true := by
  rcases runTransaction_cases w s with ⟨i, hi, hr⟩ | ⟨e, -, hr⟩ <;> rw [hr] at h
  · rcases command_of_decode hi with ⟨chunk, rfl⟩ | rfl | ⟨type, rid, payload, rfl⟩ | rfl | rfl
    · rw [exec_push] at h
      cases h
      exact faultExplained_bufAppend hs _
    · rw [exec_take] at h
      cases h
      exact faultExplained_take hs
    · obtain ⟨r, out, he⟩ := exec_encode_answers type rid payload s
      rw [he] at h
      cases h
      exact hs
    · rw [exec_query] at h
      cases h
      exact hs
    · rw [exec_clear] at h
      cases h
      exact faultExplained_of_not_fatal _ rfl
  · cases h
    exact hs

/-- Settles O44: a step is idle, a reset or a transaction, and a transaction runs one of the five commands. -/
theorem faultStaysExplained : Obligations.FaultStaysExplained := by
  intro s t hs h
  rcases step_cases s with ⟨-, hst⟩ | ⟨rest, -, hst⟩ | ⟨w, rest, -, hst⟩ | ⟨w, rest, -, hst⟩ <;> rw [hst] at h
  · cases h
    exact hs
  · cases h
    exact faultExplained_of_not_fatal _ rfl
  · exact faultExplained_runTransaction (s := { s with port := rest }) hs h
  · exact faultExplained_runTransaction (s := { s with port := .reset :: rest }) hs h

/-! ## QUERY, CLEAR and reserved words (R102 to R104) -/

/-- Settles O33: QUERY's equation, and the word of its row. -/
theorem queryReportsTheView : Obligations.QueryReportsTheView :=
  ⟨fun _ _ hword => decode_of_queryWord hword, exec_query⟩

theorem step_of_reset {rest : List Arrival} {s : State} (h : s.port = .reset :: rest) :
    step s = .next (resetByPin { s with port := rest }) := by
  simp [step, accept, h]

/-- Settles O34: CLEAR and the input `rst` share one operation, whose values are those at power-on. -/
theorem clearIsReset : Obligations.ClearIsReset :=
  ⟨fun _ _ hword => decode_of_clearWord hword, exec_clear, fun _ _ hport => step_of_reset hport, rfl, rfl, rfl⟩

/-- Settles O41: the word decodes to no command, so the transaction is answered ILLEGAL. -/
theorem reservedWordsAnswerIllegal : Obligations.ReservedWordsAnswerIllegal := by
  intro w rest s hport hword
  rw [step_of_command hport, runTransaction_of_reserved w _ _ (decode_of_reserved hword)]
  rfl

/-! ## PUSH (R95, R96) -/

/-- Settles O22: the accepted count for each kind of capacity. -/
theorem pushAppendsWhatFits : Obligations.PushAppendsWhatFits := by
  refine ⟨fun _ _ hword => decode_of_pushWord hword, ?_⟩
  intro chunk s _ append
  rw [exec_push]
  cases s.depth with
  | inf => rfl
  | finite d => rfl

theorem issue_push (chunk : Bytes) (s : State) :
    issue (.push chunk) s =
      answer (.okAccepted (acceptCount s.depth s.buf.length chunk.length))
        (bufAppend (chunk.take (acceptCount s.depth s.buf.length chunk.length)) s) := rfl

theorem issueAll_cons (i : Instr) (is : List Instr) (s : State) : issueAll (i :: is) s = issueAll is (issue i s) := rfl

/-- A queue that accepts a chunk whole accepts its first part whole, and then the rest. -/
theorem acceptCount_of_append {d : Depth} {level m n : Nat} (h : acceptCount d level (m + n) = m + n) :
    acceptCount d level m = m ∧ acceptCount d (level + m) n = n := by
  cases d with
  | inf => exact ⟨rfl, rfl⟩
  | finite k =>
    simp only [acceptCount_finite] at h ⊢
    omega

/-- R96: pieces for whose concatenation there is room are all appended. -/
theorem issueAll_push_of_accepted (pieces : List Bytes) (s : State)
    (h : acceptCount s.depth s.buf.length pieces.flatten.length = pieces.flatten.length) :
    (issueAll (pieces.map Instr.push) s).buf = s.buf ++ pieces.flatten := by
  induction pieces generalizing s with
  | nil => simp [issueAll]
  | cons c cs ih =>
    rw [List.flatten_cons, List.length_append] at h
    obtain ⟨hc, hcs⟩ := acceptCount_of_append h
    have hpush : (issue (.push c) s).buf = s.buf ++ c := by simp [issue_push, hc]
    rw [List.map_cons, issueAll_cons, ih, hpush, List.flatten_cons, List.append_assoc]
    rw [hpush, List.length_append]
    exact hcs

/-- R96: "the state depends only on the sequence of accepted bytes". -/
theorem issueAll_push_fields (pieces : List Bytes) (s : State) :
    (issueAll (pieces.map Instr.push) s).buf = s.buf ++ acceptedBytes (pieces.map Instr.push) s ∧
      (issueAll (pieces.map Instr.push) s).fatal = s.fatal ∧
      (issueAll (pieces.map Instr.push) s).cause = s.cause := by
  induction pieces generalizing s with
  | nil => simp [issueAll, acceptedBytes]
  | cons c cs ih =>
    obtain ⟨hbuf, hf, hc⟩ := ih (issue (.push c) s)
    rw [List.map_cons, issueAll_cons, acceptedBytes, ← List.append_assoc]
    exact ⟨hbuf, hf, hc⟩

/-- Settles O23: what one PUSH accepts whole, the pieces' PUSHes accept whole. -/
theorem pushSplitsFreely : Obligations.PushSplitsFreely := by
  refine ⟨fun pieces s t hexec hr => ?_, issueAll_push_fields⟩
  rw [exec_push] at hexec
  cases hexec
  have haccepted : acceptCount s.depth s.buf.length pieces.flatten.length = pieces.flatten.length := by
    simpa using hr
  obtain ⟨-, hf, hc⟩ := issueAll_push_fields pieces s
  refine ⟨?_, hf, hc⟩
  rw [issueAll_push_of_accepted pieces s haccepted, haccepted, List.take_length]
  rfl

end Sys2Proof.Machine
end

section
/-! PROOFS. TAKE (spec/41_accumulator.md): the list of checks in numbers (R98, R116), what a full queue and a wrong
magic make it answer (R99, R100, R106), and frames delivered over any chunks (R101, R105). -/

namespace Sys2Proof.Machine

/-! ## How much of a header is buffered (R83 to R86) -/

theorem readRid_eq_none (f : Bool) (b : Bytes) : readRid f b = none ↔ f = true ∧ b.length < 6 := by
  cases f with
  | false => simp [readRid]
  | true => simp [readRid, Nat.lt_succ_iff]

theorem readLength_eq_none (f : Bool) (w : LF) (b : Bytes) :
    readLength f w b = none ↔ w.bytes ≠ 0 ∧ b.length < 5 + f.toNat + w.bytes := by
  unfold readLength
  split
  · simp_all
  · split <;> simp_all

/-- INCOMPLETE is exactly a right magic and fewer bytes than the header has. -/
theorem parseForm_eq_incomplete (lfl : BitVec 2) (f : Bool) (t : BitVec 5) (b : Bytes) :
    parseForm lfl f t b = .incomplete ↔
      5 ≤ b.length ∧ magicOK b = true ∧ b.length < 5 + f.toNat + (lfOfLfl lfl).bytes := by
  unfold parseForm
  split
  · simp_all
  split
  · simp_all
  next h5 hm =>
  simp only [Bool.not_eq_false] at hm
  split
  · next hr =>
    obtain ⟨rfl, h6⟩ := (readRid_eq_none f b).1 hr
    exact iff_of_true rfl ⟨Nat.le_of_not_lt h5, hm, by rw [Bool.toNat_true]; omega⟩
  next rid hr =>
  split
  · next hl =>
    exact iff_of_true rfl ⟨Nat.le_of_not_lt h5, hm, ((readLength_eq_none f _ b).1 hl).2⟩
  · next plen hl =>
    have hrid : ¬ (f = true ∧ b.length < 6) := by rw [← readRid_eq_none, hr]; simp
    have hfive : 5 + f.toNat ≤ b.length := by
      cases f with
      | false => exact Nat.le_of_not_lt h5
      | true => exact Nat.le_of_not_lt fun h => hrid ⟨rfl, h⟩
    have hlen : ¬ ((lfOfLfl lfl).bytes ≠ 0 ∧ b.length < 5 + f.toNat + (lfOfLfl lfl).bytes) := by
      rw [← readLength_eq_none, hl]; simp
    refine iff_of_false (by simp) fun ⟨_, _, hpart⟩ => ?_
    omega

/-- INCOMPLETE at the head of the queue: the header byte says how long the header is (R54). -/
theorem parseHeader_eq_incomplete (b : Bytes) :
    parseHeader b = .incomplete ↔ 5 ≤ b.length ∧ magicOK b = true ∧ b.length < headerLength (b.headD 0) := by
  cases b with
  | nil => simp [parseHeader_nil]
  | cons h rest =>
    rw [parseHeader_cons, parseForm_eq_incomplete, List.headD_cons, headerLength, flagOf_eq, widthOf_eq]

theorem readRid_eq_getD {f : Bool} {b : Bytes} {r : Option Byte} (h : readRid f b = some r) :
    r = if f.toNat = 0 then none else some (b.getD 5 0) := by
  rcases (readRid_eq_some f b r).1 h with ⟨rfl, rfl⟩ | ⟨rfl, x, hx, rfl⟩
  · rfl
  · simp [hx]

theorem readLength_eq_lengthField {f : Bool} {w : LF} {b : Bytes} {n : Nat} (h : readLength f w b = some n) :
    n = lengthField f.toNat w.bytes b := by
  rcases (readLength_eq_some f w b n).1 h with ⟨rfl, rfl⟩ | ⟨-, -, rfl⟩ <;> rfl

/-- A parsed header in numbers: all its bytes are there, and its length and its packet are those that Safety reads from
the queue. -/
theorem parseHeader_eq_header_numbers {b : Bytes} {h : Header} (hp : parseHeader b = .header h) :
    5 ≤ b.length ∧ magicOK b = true ∧ headerLength (b.headD 0) ≤ b.length ∧
      h.total = headerLength (b.headD 0) + lengthField (flagOf (b.headD 0)) (widthOf (b.headD 0)) b ∧
      h.packet b = packetAt (flagOf (b.headD 0)) (widthOf (b.headD 0)) (typeOf (b.headD 0)) b := by
  cases b with
  | nil => cases hp
  | cons h₀ rest =>
    obtain ⟨h5, hm, rid, plen, hrid, hplen, rfl⟩ := (parseForm_eq_header _ _ _ _ _).1 hp
    have hnot : parseHeader (h₀ :: rest) ≠ .incomplete := by simp [hp]
    rw [Ne, parseHeader_eq_incomplete] at hnot
    rw [List.headD_cons] at hnot ⊢
    refine ⟨h5, hm, by_contra fun hpart => hnot ⟨h5, hm, Nat.lt_of_not_le hpart⟩, ?_, ?_⟩
    · rw [readLength_eq_lengthField hplen, headerLength, flagOf_eq, widthOf_eq]
      rfl
    · rw [readLength_eq_lengthField hplen, readRid_eq_getD hrid, flagOf_eq, widthOf_eq, typeOf_eq]
      rfl

/-! ## The list of R116 -/

theorem magicOK_iff (b : Bytes) : magicOK b = true ↔ (b.drop 1).take 4 = [0x58, 0x52, 0x32, 0x4B] := beq_iff_eq

/-- TAKE does what the list of R116 says for the header byte at the head of the queue. -/
theorem takeWith_parseHeader_eq_takeOutcome (s : State) :
    takeWith parseHeader s =
      takeOutcome (flagOf (s.buf.headD 0)) (widthOf (s.buf.headD 0)) (typeOf (s.buf.headD 0)) s := by
  have hlen : 5 + flagOf (s.buf.headD 0) + widthOf (s.buf.headD 0) = headerLength (s.buf.headD 0) := rfl
  unfold takeOutcome
  simp only [hlen, ne_eq, ← magicOK_iff]
  rcases takeWith_cases parseHeader s with ⟨hf, ht⟩ |
    ⟨hf, ⟨hp, ht⟩ | ⟨hp, ht⟩ | ⟨hp, ht⟩ | ⟨h, hp, hrest⟩⟩
  · rw [ht, if_pos hf]
    rfl
  · rw [ht, if_neg (by simp [hf]), if_pos ((parseHeader_eq_short _).1 hp)]
    rfl
  · obtain ⟨h5, hm⟩ := (parseHeader_eq_badMagic _).1 hp
    rw [ht, if_neg (by simp [hf]), if_neg (Nat.not_lt.2 h5), if_pos (by simp [hm])]
    rfl
  · obtain ⟨h5, hm, hpart⟩ := (parseHeader_eq_incomplete _).1 hp
    rw [ht, if_neg (by simp [hf]), if_neg (Nat.not_lt.2 h5), if_neg (by simp [hm]), if_pos hpart]
    rfl
  · obtain ⟨h5, hm, hheader, htotal, hpacket⟩ := parseHeader_eq_header_numbers hp
    rw [if_neg (by simp [hf]), if_neg (Nat.not_lt.2 h5), if_neg (by simp [hm]), if_neg (Nat.not_lt.2 hheader),
      ← htotal, ← hpacket]
    rw [exceedsDepth_eq_not_withinDepth, Bool.not_eq_true', Bool.not_eq_false'] at hrest
    rcases hrest with ⟨hd, ht⟩ | ⟨hd, hb, ht⟩ | ⟨hd, hb, ht⟩
    · rw [ht, if_pos hd]
      rfl
    · rw [ht, if_neg (by simp [hd]), if_pos hb]
      rfl
    · rw [ht, if_neg (by simp [hd]), if_neg (Nat.not_lt.2 hb)]
      rfl

/-- Settles O24: the list of R116 holds in every state, the legal ones included. -/
theorem takeFollowsTheOrderOfChecks : Obligations.TakeFollowsTheOrderOfChecks :=
  ⟨fun _ _ hword => decode_of_takeWord hword,
    fun s _ => congrArg Host.Outcome.next (takeWith_parseHeader_eq_takeOutcome s)⟩

/-- Settles O25: the head byte's form delivers the frame. -/
theorem takeReturnsTheEncodedPacket : Obligations.TakeReturnsTheEncodedPacket :=
  fun _ _ _ hp hf hbuf hdepth => exec_take_of_encodePacket hp hf hbuf hdepth

/-! ## OVERSIZE (R99) -/

/-- Without a bound on the queue no header is too long, so no explained fault is an OVERSIZE. -/
theorem take_ne_oversize_of_inf {s : State} (hs : s.faultExplained = true) (hinf : s.depth = .inf) :
    (takeWith parseHeader s).rsp ≠ some .oversize := by
  have hnever (n : Nat) : exceedsDepth n s.depth = false := by rw [hinf, exceedsDepth_inf]
  rcases takeWith_cases parseHeader s with ⟨hf, ht⟩ |
    ⟨-, ⟨-, ht⟩ | ⟨-, ht⟩ | ⟨-, ht⟩ | ⟨h, -, ⟨hd, -⟩ | ⟨-, -, ht⟩ | ⟨-, -, ht⟩⟩⟩
  · rcases (faultExplained_iff s).1 hs with hf' | ⟨hc, -⟩ | ⟨-, h, -, hd⟩
    · simp [hf] at hf'
    · simp [ht, hc, stickyResponse]
    · simp [hnever] at hd
  · simp [ht]
  · simp [ht, FatalCondition.response]
  · simp [ht]
  · simp [hnever] at hd
  · simp [ht]
  · simp [ht]

/-- Settles O27: the capacity check stands before the wait for the payload, and INF never fails it. -/
theorem oversizeAsSoonAsTheHeaderIsRead : Obligations.OversizeAsSoonAsTheHeaderIsRead := by
  constructor
  · intro s d h hf hdepth hp hlarge
    have hexceeds : exceedsDepth h.total s.depth = true := by rw [hdepth, exceedsDepth_finite]; exact hlarge
    rw [exec_take, takeWith, hf, hp]
    simp only [Bool.false_eq_true, if_false, takeParsed, hexceeds, if_true]
    rfl
  · intro s t hs hinf hexec
    rw [exec_take] at hexec
    cases hexec
    exact take_ne_oversize_of_inf hs hinf

/-! ## A full queue (R100) -/

/-- The three answers with which TAKE makes progress. -/
def MakesProgress (r : Option Response) : Prop :=
  r = some .badMagic ∨ r = some .oversize ∨ ∃ p n, r = some (.okPacket p n)

/-- A full queue holds a whole header, and a frame that is not whole then exceeds the capacity. -/
theorem take_makesProgress_of_full {s : State} {d : Nat} (hdepth : s.depth = .finite d) (hd : 10 ≤ d)
    (hf : s.fatal = false) (hfull : s.buf.length = d) : MakesProgress (takeWith parseHeader s).rsp := by
  rcases takeWith_cases parseHeader s with ⟨hf', -⟩ |
    ⟨-, ⟨hp, -⟩ | ⟨-, ht⟩ | ⟨hp, -⟩ | ⟨h, -, ⟨-, ht⟩ | ⟨hfits, hpart, -⟩ | ⟨-, -, ht⟩⟩⟩
  · simp [hf] at hf'
  · have hshort := (parseHeader_eq_short _).1 hp
    omega
  · exact .inl (by rw [ht]; rfl)
  · obtain ⟨-, -, hheader⟩ := (parseHeader_eq_incomplete _).1 hp
    have hten := headerLength_le_ten (s.buf.headD 0)
    omega
  · exact .inr (.inl (by rw [ht]; rfl))
  · rw [hdepth, exceedsDepth_eq_not_withinDepth, Bool.not_eq_false', withinDepth_finite] at hfits
    omega
  · exact .inr (.inr ⟨_, _, by rw [ht]; rfl⟩)

/-- Settles O28: a PUSH that accepts less than it was offered leaves the queue full. -/
theorem fullQueueMakesProgress : Obligations.FullQueueMakesProgress := by
  intro s d hdepth hd hf
  refine ⟨fun hfull => ⟨_, exec_take s, take_makesProgress_of_full hdepth hd hf hfull⟩, ?_⟩
  intro chunk t k hlevel hexec hr hk
  rw [exec_push] at hexec
  cases hexec
  have hcount : acceptCount s.depth s.buf.length chunk.length = k := by simpa using hr
  have hroom : min chunk.length (d - s.buf.length) = k := by rw [← hcount, hdepth, acceptCount_finite]
  refine ⟨_, exec_take _, take_makesProgress_of_full hdepth hd hf ?_⟩
  rw [answer_buf, bufAppend_buf, hcount, List.length_append, List.length_take]
  omega

/-! ## A wrong magic is permanent (R106) -/

/-- The queue shows a wrong magic, and the fatal state, where the block is in it, was entered for that. -/
def State.ShowsBadMagic (s : State) : Prop :=
  parseHeader s.buf = .badMagic ∧ (s.fatal = false ∨ s.cause = codeBadMagic)

namespace State.ShowsBadMagic

variable {s : State}

theorem push (hs : s.ShowsBadMagic) (chunk : Bytes) :
    (issue (.push chunk) s).ShowsBadMagic ∧ (issue (.push chunk) s).buf.take 5 = s.buf.take 5 := by
  obtain ⟨hp, hfault⟩ := hs
  have hfive : 5 ≤ s.buf.length := ((parseHeader_eq_badMagic _).1 hp).1
  exact ⟨⟨parseHeader_append_of_badMagic _ hp, hfault⟩, List.take_append_of_le_length hfive⟩

/-- TAKE reports the wrong magic, found again or remembered, and leaves the queue as it is. -/
theorem take (hs : s.ShowsBadMagic) :
    (issue .take s).ShowsBadMagic ∧ (issue .take s).buf = s.buf ∧ (issue .take s).rsp = some .badMagic := by
  obtain ⟨hp, hfault⟩ := hs
  rw [issue_take]
  cases hf : s.fatal with
  | false =>
    have ht : takeWith parseHeader s = enterFatal .badMagic s := by simp [takeWith, hf, hp, takeParsed]
    rw [ht]
    exact ⟨⟨hp, .inr rfl⟩, rfl, rfl⟩
  | true =>
    have hc : s.cause = codeBadMagic := hfault.resolve_left (by simp [hf])
    have ht : takeWith parseHeader s = answer .badMagic s := by simp [takeWith, hf, hc, stickyResponse]
    rw [ht]
    exact ⟨⟨hp, .inr hc⟩, rfl, rfl⟩

/-- One PUSH or TAKE keeps the wrong magic and the five bytes that show it, and returns no packet. -/
theorem issue_of_isPushOrTake (hs : s.ShowsBadMagic) {i : Instr} (hi : isPushOrTake i = true) :
    (issue i s).ShowsBadMagic ∧ (issue i s).buf.take 5 = s.buf.take 5 ∧
      (issue i s).rsp.bind Response.packet? = none := by
  cases i with
  | push chunk =>
    obtain ⟨hs', hfive⟩ := hs.push chunk
    exact ⟨hs', hfive, rfl⟩
  | take =>
    obtain ⟨hs', hbuf, hr⟩ := hs.take
    exact ⟨hs', by rw [hbuf], by rw [hr]; rfl⟩
  | _ => cases hi

theorem issueAll (hs : s.ShowsBadMagic) {is : List Instr} (his : ∀ i ∈ is, isPushOrTake i = true) :
    (issueAll is s).ShowsBadMagic ∧ (issueAll is s).buf.take 5 = s.buf.take 5 ∧
      packetsOf (responses is s) = [] := by
  induction is generalizing s with
  | nil => exact ⟨hs, rfl, rfl⟩
  | cons i is ih =>
    obtain ⟨hi, his'⟩ := List.forall_mem_cons.1 his
    obtain ⟨hs', hfive, hnone⟩ := hs.issue_of_isPushOrTake hi
    obtain ⟨hend, hfive', hpackets⟩ := ih hs' his'
    refine ⟨hend, hfive'.trans hfive, ?_⟩
    rw [responses, packetsOf_cons, hnone, hpackets]
    rfl

end State.ShowsBadMagic

/-- Settles O35: the wrong magic lasts through the sequence, and one more TAKE reports it. -/
theorem badMagicIsPermanent : Obligations.BadMagicIsPermanent := by
  intro is s his hp hfault
  obtain ⟨hend, hfive, hpackets⟩ := State.ShowsBadMagic.issueAll (s := s) ⟨hp, hfault⟩ his
  obtain ⟨-, -, hr⟩ := hend.take
  exact ⟨hfive, hend.1, hr, hpackets⟩

/-! ## One round of PUSH and TAKE (R101, R105) -/

/-- What the host does for each chunk it has received: PUSH, then TAKE. -/
def pushTake (chunk : Bytes) (s : State) : State := issue .take (issue (.push chunk) s)

/-- What TAKE answers while `n` bytes of a frame are there and more are to come (R108, R109). -/
def waitResponse (n : Nat) : Response := if n < 5 then .short else .incomplete

/-- TAKE waits while the queue holds only the first part of an encoded packet: whatever it reads of the part it would
read of the whole frame (R91, R92). -/
theorem take_of_partial_frame {p : Packet} {s : State} {y : Bytes} (hp : p.wf = true) (hf : s.fatal = false)
    (hdepth : withinDepth (encodePacket p).length s.depth = true) (hbuf : s.buf ++ y = encodePacket p) (hy : y ≠ []) :
    issue .take s = answer (waitResponse s.buf.length) s := by
  have hwhole : decodeFrame (s.buf ++ y) = .frame p (encodePacket p).length := by
    simpa [hbuf] using decodeFrame_encodePacket_append [] hp
  obtain ⟨h, hparse, -, -, htotal⟩ := (decodeFrame_eq_frame _ _ _).1 hwhole
  have hlonger : s.buf.length < (encodePacket p).length := by
    rw [← hbuf, List.length_append]
    exact Nat.lt_add_of_pos_right (List.length_pos_iff.2 hy)
  have hwait (hp : parseHeader s.buf ≠ .short) : waitResponse s.buf.length = .incomplete :=
    if_neg (mt (parseHeader_eq_short _).2 hp)
  rw [issue_take]
  rcases takeWith_cases parseHeader s with ⟨hf', -⟩ |
    ⟨-, ⟨hp, ht⟩ | ⟨hp, -⟩ | ⟨hp, ht⟩ | ⟨h', hp, hrest⟩⟩
  · simp [hf] at hf'
  · rw [ht, waitResponse, if_pos ((parseHeader_eq_short _).1 hp)]
  · rw [parseHeader_append_of_badMagic y hp] at hparse
    cases hparse
  · rw [ht, hwait (by simp [hp])]
  · obtain rfl : h' = h := by
      rw [parseHeader_append_of_header y hp] at hparse
      exact HeaderResult.header.inj hparse
    rw [← htotal, exceedsDepth_eq_not_withinDepth, hdepth] at hrest
    rcases hrest with ⟨hd, -⟩ | ⟨-, -, ht⟩ | ⟨-, hb, -⟩
    · cases hd
    · rw [ht, hwait (by simp [hp])]
    · omega

section Round

variable {p : Packet} {s : State} {chunk : Bytes}

/-- A chunk of a frame that the capacity admits is accepted whole. -/
theorem issue_push_of_frame_part {y : Bytes} (hdepth : withinDepth (encodePacket p).length s.depth = true)
    (hbuf : s.buf ++ (chunk ++ y) = encodePacket p) :
    issue (.push chunk) s = answer (.okAccepted chunk.length) (bufAppend chunk s) := by
  refine issue_push_of_room (withinDepth_mono _ _ _ hdepth ?_)
  rw [← hbuf, List.length_append, List.length_append]
  omega

/-- A round before the frame's last byte. -/
theorem pushTake_of_partial_frame {y : Bytes} (hp : p.wf = true) (hf : s.fatal = false)
    (hdepth : withinDepth (encodePacket p).length s.depth = true) (hbuf : s.buf ++ (chunk ++ y) = encodePacket p)
    (hy : y ≠ []) :
    pushTake chunk s = answer (waitResponse (s.buf.length + chunk.length)) (bufAppend chunk s) := by
  have htake := take_of_partial_frame (s := answer (.okAccepted chunk.length) (bufAppend chunk s)) (y := y) hp hf hdepth
    (by simpa using hbuf) hy
  rw [pushTake, issue_push_of_frame_part hdepth hbuf, htake, answer_buf, bufAppend_buf, List.length_append]
  rfl

/-- The round with the frame's last byte. -/
theorem pushTake_of_last_part (hp : p.wf = true) (hf : s.fatal = false)
    (hdepth : withinDepth (encodePacket p).length s.depth = true) (hbuf : s.buf ++ chunk = encodePacket p) :
    pushTake chunk s =
      { s with buf := [], rsp := some (.okPacket p (encodePacket p).length), tx := [] } := by
  rw [pushTake, issue_push_of_frame_part (y := []) hdepth (by simpa using hbuf)]
  exact issue_of_exec (exec_take_of_encodePacket hp hf (by simpa using hbuf) hdepth)

end Round

/-! ## One byte at a time (R101) -/

/-- The encoding pushed one byte at a time, with a TAKE after each byte. -/
def pushTakeBytes (bs : Bytes) (s : State) : State := issueAll (bs.flatMap (fun b => [pushb b, .take])) s

theorem pushTakeBytes_append_singleton (bs : Bytes) (b : Byte) (s : State) :
    pushTakeBytes (bs ++ [b]) s = pushTake [b] (pushTakeBytes bs s) := by
  simp [pushTakeBytes, issueAll, pushTake, pushb]

/-- Before the last byte the queue holds all that was pushed, and the last TAKE waits. -/
theorem pushTakeBytes_of_partial_frame {p : Packet} {d : Depth} {x y : Bytes} (hp : p.wf = true)
    (hdepth : withinDepth (encodePacket p).length d = true) (hxy : x ++ y = encodePacket p) (hy : y ≠ []) :
    (pushTakeBytes x (State.resetAt d)).buf = x ∧ (pushTakeBytes x (State.resetAt d)).fatal = false ∧
      (pushTakeBytes x (State.resetAt d)).depth = d ∧
      (x ≠ [] → (pushTakeBytes x (State.resetAt d)).rsp = some (waitResponse x.length)) := by
  induction x using List.reverseRecOn generalizing y with
  | nil => exact ⟨rfl, rfl, rfl, fun h => absurd rfl h⟩
  | append_singleton x b ih =>
    rw [List.append_assoc] at hxy
    obtain ⟨hbuf, hf, hd, -⟩ := ih hxy (by simp)
    rw [pushTakeBytes_append_singleton,
      pushTake_of_partial_frame hp hf (by rw [hd]; exact hdepth) (by rw [hbuf]; exact hxy) hy]
    simp [hbuf, hf, hd]

/-- The last byte completes the frame. -/
theorem pushTakeBytes_encodePacket {p : Packet} {d : Depth} (hp : p.wf = true)
    (hdepth : withinDepth (encodePacket p).length d = true) :
    (pushTakeBytes (encodePacket p) (State.resetAt d)).buf = [] ∧
      (pushTakeBytes (encodePacket p) (State.resetAt d)).fatal = false ∧
      (pushTakeBytes (encodePacket p) (State.resetAt d)).rsp = some (.okPacket p (encodePacket p).length) := by
  obtain hnil | ⟨x, b, hxb⟩ := List.eq_nil_or_concat (encodePacket p)
  · simp [encodePacket_eq] at hnil
  rw [List.concat_eq_append] at hxb
  obtain ⟨hbuf, hf, hd, -⟩ := pushTakeBytes_of_partial_frame hp hdepth hxb.symm (by simp)
  have hlast : pushTakeBytes (encodePacket p) (State.resetAt d) = pushTake [b] (pushTakeBytes x (State.resetAt d)) := by
    rw [hxb, pushTakeBytes_append_singleton]
  rw [hlast, pushTake_of_last_part hp hf (by rw [hd]; exact hdepth) (by rw [hbuf, hxb])]
  exact ⟨rfl, hf, rfl⟩

/-- Settles O29: every round before the last waits, and the last one delivers. -/
theorem incrementalDelivery : Obligations.IncrementalDelivery := by
  intro p d k hp hdepth hpos hk s
  have hs : s = pushTakeBytes ((encodePacket p).take k) (State.resetAt d) := rfl
  rcases Nat.lt_or_eq_of_le hk with hlt | rfl
  · have hnil : (encodePacket p).take k ≠ [] := List.length_pos_iff.1 (by rw [List.length_take]; omega)
    have hrest : (encodePacket p).drop k ≠ [] := List.length_pos_iff.1 (by rw [List.length_drop]; omega)
    obtain ⟨hbuf, hf, -, hr⟩ := pushTakeBytes_of_partial_frame hp hdepth (List.take_append_drop k _) hrest
    rw [hs, hr hnil, hbuf, List.length_take, Nat.min_eq_left hk, waitResponse, if_pos hlt, if_pos hlt]
    exact ⟨rfl, rfl, hf⟩
  · rw [List.take_length] at hs
    obtain ⟨hbuf, hf, hr⟩ := pushTakeBytes_encodePacket hp hdepth
    have hfive : ¬ (encodePacket p).length < 5 := by rw [encodePacket_length]; omega
    rw [hs, hr, hbuf, if_neg hfive, if_neg (Nat.lt_irrefl _), if_neg (Nat.lt_irrefl _)]
    exact ⟨rfl, rfl, hf⟩

/-! ## NEXT_FRAME (R105) -/

theorem afterTake_waitResponse (n : Nat) (pending : Bytes) (transport : List Receive) (s : State) :
    afterTake pending transport (answer (waitResponse n) s) = none := by
  unfold waitResponse
  split <;> rfl

/-- A round of NEXT_FRAME whose PUSH accepts all that was received. -/
theorem nextFrame_of_accepted {chunk : Bytes} (hchunk : chunk ≠ []) (fuel : Nat) (transport : List Receive) (s : State)
    (haccepted : issue (.push chunk) s = answer (.okAccepted chunk.length) (bufAppend chunk s)) :
    nextFrame (fuel + 1) [] (.bytes chunk :: transport) s =
      (afterTake [] transport (pushTake chunk s)).getD (nextFrame fuel [] transport (pushTake chunk s)) := by
  obtain ⟨b, bs, rfl⟩ := List.exists_cons_of_ne_nil hchunk
  have hleft : (b :: bs).drop (acceptedCount (issue (.push (b :: bs)) s).rsp) = [] := by
    rw [haccepted]
    exact List.drop_length
  simp only [nextFrame, hleft, pushTake]

/-- NEXT_FRAME in the middle of a frame: from the bytes already in the queue, the chunks still to come complete it. -/
theorem nextFrame_of_remaining_chunks {p : Packet} (hp : p.wf = true) (chunks : List Bytes) (fuel : Nat) (s : State)
    (hbuf : s.buf ++ chunks.flatten = encodePacket p) (hsome : chunks ≠ []) (hchunks : ∀ c ∈ chunks, c ≠ [])
    (hfuel : chunks.length ≤ fuel) (hf : s.fatal = false)
    (hdepth : withinDepth (encodePacket p).length s.depth = true) :
    ∃ t, nextFrame fuel [] (chunks.map Receive.bytes) s = .packet p [] [] t ∧ t.buf = [] ∧ t.fatal = false := by
  induction chunks generalizing fuel s with
  | nil => exact absurd rfl hsome
  | cons c cs ih =>
    obtain ⟨hc, hcs⟩ := List.forall_mem_cons.1 hchunks
    obtain ⟨fuel, rfl⟩ : ∃ k, fuel = k + 1 := Nat.exists_eq_succ_of_ne_zero (by rintro rfl; cases hfuel)
    rw [List.flatten_cons] at hbuf
    rw [List.map_cons, nextFrame_of_accepted hc _ _ _ (issue_push_of_frame_part hdepth hbuf)]
    cases cs with
    | nil =>
      rw [pushTake_of_last_part hp hf hdepth (by simpa using hbuf)]
      exact ⟨_, rfl, rfl, hf⟩
    | cons c' cs =>
      have hmore : (c' :: cs).flatten ≠ [] := by simp [hcs c' (by simp)]
      rw [pushTake_of_partial_frame hp hf hdepth hbuf hmore, afterTake_waitResponse, Option.getD_none]
      exact ih fuel _ (by simpa using hbuf) (by simp) hcs (Nat.le_of_succ_le_succ hfuel) hf hdepth

/-- Settles O32: an encoded packet is not empty, so there is a chunk to begin with. -/
theorem nextFrameDeliversOverAnyChunks : Obligations.NextFrameDeliversOverAnyChunks := by
  intro p chunks fuel s hp hflat hchunks hfuel hbuf hf hdepth
  have hsome : chunks ≠ [] := by
    rintro rfl
    simp [encodePacket_eq] at hflat
  exact nextFrame_of_remaining_chunks hp chunks fuel s (by rw [hbuf, hflat, List.nil_append]) hsome hchunks hfuel hf
    hdepth

end Sys2Proof.Machine
end

section
/-! PROOFS. The order of the checks for every header form (spec/60_exceptions.md R116; log 4): what a form's parser
finds, and what the form then answers, are one list of checks. -/

namespace Sys2Proof.Machine

/-! ## What a form's parser finds (R85, R86) -/

/-- The header of the form LF, F with type `t`, with its fields read from bytes that are there. -/
def formHeader (lf : LF) (f : Bool) (t : BitVec 5) (b : Bytes) : Header :=
  { lfl := lflOfLf lf
    f := f
    type := t
    rid := if f.toNat = 0 then none else some (b.getD 5 0)
    lf := lf
    plen := lengthField f.toNat lf.bytes b
    hl := 5 + f.toNat + lf.bytes }

theorem formHeader_total (lf : LF) (f : Bool) (t : BitVec 5) (b : Bytes) :
    (formHeader lf f t b).total = 5 + f.toNat + lf.bytes + lengthField f.toNat lf.bytes b := rfl

theorem formHeader_packet (lf : LF) (f : Bool) (t : BitVec 5) (b : Bytes) :
    (formHeader lf f t b).packet b = packetAt f.toNat lf.bytes t b := rfl

/-- A form's parser as checks 2 to 4 of R116, in numbers. -/
theorem parseForm_eq_checks (lf : LF) (f : Bool) (t : BitVec 5) (b : Bytes) :
    parseForm (lflOfLf lf) f t b =
      if b.length < 5 then .short
      else if (b.drop 1).take 4 ≠ [0x58, 0x52, 0x32, 0x4B] then .badMagic
      else if b.length < 5 + f.toNat + lf.bytes then .incomplete
      else .header (formHeader lf f t b) := by
  simp only [ne_eq, ← magicOK_iff]
  cases hp : parseForm (lflOfLf lf) f t b with
  | short => rw [if_pos ((parseForm_eq_short _ _ _ _).1 hp)]
  | badMagic =>
    obtain ⟨h5, hm⟩ := (parseForm_eq_badMagic _ _ _ _).1 hp
    rw [if_neg (Nat.not_lt.2 h5), if_pos (by simp [hm])]
  | incomplete =>
    obtain ⟨h5, hm, hpart⟩ := (parseForm_eq_incomplete _ _ _ _).1 hp
    rw [lfOfLfl_lflOfLf] at hpart
    rw [if_neg (Nat.not_lt.2 h5), if_neg (not_not.2 hm), if_pos hpart]
  | header h =>
    obtain ⟨h5, hm, rid, plen, hrid, hplen, rfl⟩ := (parseForm_eq_header _ _ _ _ _).1 hp
    have hnot : parseForm (lflOfLf lf) f t b ≠ .incomplete := by simp [hp]
    rw [Ne, parseForm_eq_incomplete, lfOfLfl_lflOfLf] at hnot
    rw [if_neg (Nat.not_lt.2 h5), if_neg (not_not.2 hm), if_neg fun hpart => hnot ⟨h5, hm, hpart⟩,
      readRid_eq_getD hrid, readLength_eq_lengthField hplen, lfOfLfl_lflOfLf]
    rfl

/-! ## What the form answers (R98, R116) -/

/-- TAKE once a header has been read, as checks 5 to 7 of R116. -/
theorem takeParsed_header (h : Header) (s : State) :
    takeParsed (.header h) s =
      if withinDepth h.total s.depth = false then enterFatal .oversize s
      else if s.buf.length < h.total then answer .incomplete s
      else answer (.okPacket (h.packet s.buf) h.total) (bufDrop h.total s) := by
  rw [takeParsed, exceedsDepth_eq_not_withinDepth, decodeAfter, apply_ite (deliver · s)]
  simp only [Bool.not_eq_true']
  rfl

/-- A header form and the list of R116 make the same checks, so they agree check by check. -/
theorem takeForm_eq_takeOutcome (lf : LF) (f : Bool) (t : BitVec 5) (s : State) :
    takeForm (lflOfLf lf) f t s = takeOutcome f.toNat lf.bytes t s := by
  rw [takeForm, takeWith, takeOutcome, parseForm_eq_checks]
  simp only [apply_ite (takeParsed · s), takeParsed_header, formHeader_total, formHeader_packet]
  rfl

/-- Settles O17: a header form is TAKE with that form's parser, and its checks are the list of R116. -/
theorem headerFormsFollowTheOrderOfChecks : Obligations.HeaderFormsFollowTheOrderOfChecks := fun lf f t s => by
  rw [exec_headerForm, takeForm_eq_takeOutcome]

end Sys2Proof.Machine
end

section
/-! PROOFS. Status codes and the fatal state (spec/60_exceptions.md): every command completes (R124), what each may
answer (R107), how the fatal state is entered (R113), what works in it (R114), and what leaves it (R115). -/

namespace Sys2Proof.Machine

/-! ## Every command completes (R124, R136) -/

theorem takeWith_responds (parse : Bytes → HeaderResult) (s : State) : ∃ r, (takeWith parse s).rsp = some r := by
  rcases takeWith_effects parse s with ⟨r, -, ht⟩ | ⟨-, c, ht⟩ | ⟨-, ht⟩ | ⟨p, n, -, ht⟩ <;> rw [ht]
  · exact ⟨r, rfl⟩
  · exact ⟨c.response, rfl⟩
  · exact ⟨stickyResponse s.cause, rfl⟩
  · exact ⟨.okPacket p n, rfl⟩

theorem exec_responds_of_isTaking {i : Instr} (hi : isTaking i = true) (s : State) :
    ∃ t r, exec i s = .next t ∧ t.rsp = some r := by
  obtain ⟨parse, hexec⟩ := exec_of_isTaking i hi s
  obtain ⟨r, hr⟩ := takeWith_responds parse s
  exact ⟨_, r, hexec, hr⟩

theorem exec_responds (i : Instr) (s : State) : ∃ t r, exec i s = .next t ∧ t.rsp = some r := by
  cases i with
  | push chunk => exact ⟨_, _, exec_push chunk s, rfl⟩
  | encode type rid payload =>
    obtain ⟨r, out, he⟩ := exec_encode_answers type rid payload s
    exact ⟨_, r, he, rfl⟩
  | query => exact ⟨_, _, exec_query s, rfl⟩
  | clear => exact ⟨_, _, exec_clear s, rfl⟩
  | _ => exact exec_responds_of_isTaking rfl s

theorem runTransaction_responds (w : Transaction) (s : State) :
    ∃ t r, runTransaction w s = .next t ∧ t.rsp = some r := by
  rcases runTransaction_cases w s with ⟨i, -, hr⟩ | ⟨e, -, hr⟩ <;> rw [hr]
  · exact exec_responds i s
  · exact ⟨_, _, rfl, answerReserved_rsp s⟩

theorem step_completes (s : State) : ∃ t, step s = .next t := by
  rcases step_cases s with ⟨-, hst⟩ | ⟨rest, -, hst⟩ | ⟨w, rest, -, hst⟩ | ⟨w, rest, -, hst⟩ <;> rw [hst]
  · exact ⟨_, rfl⟩
  · exact ⟨_, rfl⟩
  · obtain ⟨t, -, ht, -⟩ := runTransaction_responds w { s with port := rest }
    exact ⟨t, ht⟩
  · obtain ⟨t, -, ht, -⟩ := runTransaction_responds w { s with port := .reset :: rest }
    exact ⟨t, ht⟩

theorem run_succ_of_step {s t : State} (n : Nat) (h : step s = .next t) : core.run (n + 1) s = core.run n t := by
  have hstep : core.step s = .next t := h
  simp only [Host.Core.run, hstep]

theorem run_completes (n : Nat) (s : State) : ∃ t, core.run n s = .next t := by
  induction n generalizing s with
  | zero => exact ⟨s, rfl⟩
  | succ n ih =>
    obtain ⟨t, hstep⟩ := step_completes s
    rw [run_succ_of_step n hstep]
    exact ih t

/-- Settles O49: every instruction responds, and every step leads to a further one. -/
theorem everyCommandCompletes : Obligations.EveryCommandCompletes := by
  refine ⟨fun i s => ?_, run_completes⟩
  obtain ⟨t, r, hexec, hr⟩ := exec_responds i s
  exact ⟨t, hexec, by rw [hr, Option.isSome_some]⟩

/-! ## Status codes (R107) -/

theorem status_le_six (r : Response) : r.status.toNat ≤ 0x06 := by
  cases r <;> simp [Response.status]

theorem FatalCondition.response_status (c : FatalCondition) : c.response.status = c.code := by
  cases c <;> rfl

theorem FatalCondition.code_cases (c : FatalCondition) : c.code = 0x03 ∨ c.code = 0x04 := by
  cases c with
  | badMagic => exact .inl rfl
  | oversize => exact .inr rfl

/-- Between `s`, outside the fatal state, and `t`, answered by `r`: the fatal state is entered exactly where `r`
reports a fatal condition, and `cause` is then its code (R107, R113). -/
def FatalByStatus (s t : State) (r : Response) : Prop :=
  (s.fatal = false → (t.fatal = true ↔ r.status = 0x03 ∨ r.status = 0x04)) ∧
    (s.fatal = false → t.fatal = true → t.cause = r.status)

theorem fatalByStatus_of_not_entered {s t : State} {r : Response} (ht : s.fatal = false → t.fatal = false)
    (hr : ¬ (r.status = 0x03 ∨ r.status = 0x04)) : FatalByStatus s t r :=
  ⟨fun hs => iff_of_false (Bool.eq_false_iff.1 (ht hs)) hr,
    fun hs hfatal => absurd hfatal (Bool.eq_false_iff.1 (ht hs))⟩

theorem fatalByStatus_enterFatal (c : FatalCondition) (s : State) :
    FatalByStatus s (enterFatal c s) c.response := by
  rw [FatalByStatus, c.response_status]
  exact ⟨fun _ => iff_of_true rfl c.code_cases, fun _ _ => rfl⟩

theorem takeWith_status (parse : Bytes → HeaderResult) (s : State) :
    ∃ r, (takeWith parse s).rsp = some r ∧ r.status.toNat ≤ 0x04 ∧ FatalByStatus s (takeWith parse s) r := by
  rcases takeWith_effects parse s with ⟨r, hwait, ht⟩ | ⟨-, c, ht⟩ | ⟨hf, ht⟩ | ⟨p, n, -, ht⟩ <;> rw [ht]
  · refine ⟨r, rfl, ?_⟩
    rcases hwait with rfl | rfl
    · exact ⟨by decide, fatalByStatus_of_not_entered id (by decide)⟩
    · exact ⟨by decide, fatalByStatus_of_not_entered id (by decide)⟩
  · refine ⟨c.response, rfl, ?_, fatalByStatus_enterFatal c s⟩
    rcases c.code_cases with hc | hc <;> simp [c.response_status, hc]
  · refine ⟨stickyResponse s.cause, rfl, ?_, ?_⟩
    · rcases stickyResponse_cases s.cause with hr | hr <;> simp [hr, Response.status]
    · simp [FatalByStatus, hf]
  · exact ⟨.okPacket p n, rfl, Nat.zero_le _, fatalByStatus_of_not_entered id (by simp [Response.status])⟩

theorem exec_status_of_isTaking {i : Instr} (hi : isTaking i = true) {s t : State} (h : exec i s = .next t) :
    ∃ r, t.rsp = some r ∧ r.status.toNat ≤ 0x04 ∧ FatalByStatus s t r := by
  obtain ⟨parse, hexec⟩ := exec_of_isTaking i hi s
  rw [hexec] at h
  cases h
  exact takeWith_status parse s

/-- ENCODE answers OK or ENCODE_ERROR (R72, R77). -/
theorem exec_encode_status {type : Byte} {rid : Option Byte} {payload : Bytes} {s t : State}
    (h : exec (.encode type rid payload) s = .next t) :
    ∃ r, t.rsp = some r ∧ (r.status = 0x00 ∨ r.status = 0x05) ∧ FatalByStatus s t r := by
  rw [exec_encode] at h
  cases h
  split
  · exact ⟨.encodeError, rfl, .inr rfl, fatalByStatus_of_not_entered id (by decide)⟩
  · exact ⟨.ok, rfl, .inl rfl, fatalByStatus_of_not_entered id (by decide)⟩

/-- Settles O36: the four commands that parse nothing enter no fatal state, and TAKE and the header forms enter it with
the condition they answer. -/
theorem statusCodesByCommand : Obligations.StatusCodesByCommand := by
  refine ⟨status_le_six, fun i s t h => ?_⟩
  cases i with
  | push chunk =>
    rw [exec_push] at h
    cases h
    exact ⟨_, rfl, rfl, fatalByStatus_of_not_entered id (by simp [Response.status])⟩
  | encode type rid payload => exact exec_encode_status h
  | query =>
    rw [exec_query] at h
    cases h
    exact ⟨statusView s, rfl, rfl, fatalByStatus_of_not_entered id (by simp [statusView, Response.status])⟩
  | clear =>
    rw [exec_clear] at h
    cases h
    exact ⟨.ok, rfl, rfl, fatalByStatus_of_not_entered (fun _ => rfl) (by decide)⟩
  | _ => exact exec_status_of_isTaking rfl h

/-! ## Entering the fatal state (R113) -/

/-- PUSH, ENCODE, QUERY and CLEAR do not set the flag. -/
theorem isTaking_of_fatal_entered {i : Instr} {s t : State} (h : exec i s = .next t) (hs : s.fatal = false)
    (ht : t.fatal = true) : isTaking i = true := by
  obtain ⟨-, -, hframe⟩ := eachInstructionChangesOnlyItsOwn i s t h
  cases i with
  | push chunk =>
    obtain ⟨-, hf, -⟩ := hframe
    simp [hf, hs] at ht
  | encode type rid payload =>
    obtain ⟨-, hf, -⟩ := hframe
    simp [hf, hs] at ht
  | query =>
    obtain ⟨-, hf, -⟩ := hframe
    simp [hf, hs] at ht
  | clear =>
    obtain ⟨-, hf, -⟩ := hframe
    simp [hf] at ht
  | _ => rfl

/-- Settles O37: outside the fatal state, TAKE answers a fatal condition only where it enters the fatal state for it. -/
theorem fatalEntryIsPrecise : Obligations.FatalEntryIsPrecise := by
  refine ⟨fun i s t => isTaking_of_fatal_entered, fun s t h hs => ?_⟩
  rw [exec_take] at h
  cases h
  rcases takeWith_effects parseHeader s with ⟨r, hwait, ht⟩ | ⟨-, c, ht⟩ | ⟨hf, -⟩ | ⟨p, n, -, ht⟩
  · rw [ht]
    rcases hwait with rfl | rfl <;> simp [hs]
  · rw [ht]
    cases c with
    | badMagic => exact ⟨fun _ => rfl, fun hr => (nomatch hr), fun _ => .inl rfl⟩
    | oversize => exact ⟨fun hr => (nomatch hr), fun _ => rfl, fun _ => .inr rfl⟩
  · exact absurd hf (by simp [hs])
  · rw [ht]
    simp [hs]

/-! ## Staying in the fatal state (R114) -/

/-- `t` is in the fatal state that `s` is in, and its last response carries no packet. -/
def StaysFatal (s t : State) : Prop :=
  t.fatal = true ∧ t.cause = s.cause ∧ t.rsp.bind Response.packet? = none

theorem exec_stays_fatal_of_isTaking {i : Instr} (hi : isTaking i = true) {s t : State} (hs : s.fatal = true)
    (h : exec i s = .next t) : StaysFatal s t := by
  obtain ⟨parse, hexec⟩ := exec_of_isTaking i hi s
  rw [hexec, takeWith, if_pos hs] at h
  cases h
  rcases stickyResponse_cases s.cause with hr | hr <;> simp [StaysFatal, hs, hr, Response.packet?]

/-- In the fatal state only CLEAR touches `fatal` and `cause`, and nothing returns a packet. -/
theorem exec_stays_fatal {i : Instr} {s t : State} (hi : i ≠ .clear) (hs : s.fatal = true)
    (h : exec i s = .next t) : StaysFatal s t := by
  cases i with
  | push chunk =>
    rw [exec_push] at h
    cases h
    exact ⟨hs, rfl, rfl⟩
  | encode type rid payload =>
    rw [exec_encode] at h
    cases h
    split
    · exact ⟨hs, rfl, rfl⟩
    · exact ⟨hs, rfl, rfl⟩
  | query =>
    rw [exec_query] at h
    cases h
    exact ⟨hs, rfl, rfl⟩
  | clear => exact absurd rfl hi
  | _ => exact exec_stays_fatal_of_isTaking rfl hs h

theorem word_of_clear_fields {w : Byte} (hrsv : cmdRsv w = 0) (hop : cmdOp w = opClear) : w = cmdWord opClear := by
  revert w
  decide

/-- The one word that decodes to CLEAR (R64). -/
theorem clearWord_of_decode {w : Transaction} (h : decode (.command w) = .ok .clear) : w.word = cmdWord opClear := by
  simp only [decode, decodeCommand] at h
  split_ifs at h with hrsv hpush htake hencode hquery hclear
  · cases h
  · cases h
  · cases h
  · cases h
  · exact word_of_clear_fields (not_not.1 hrsv) hclear

theorem runTransaction_stays_fatal {w : Transaction} {s t : State} (hw : w.word ≠ 0x07) (hs : s.fatal = true)
    (h : runTransaction w s = .next t) : StaysFatal s t ∧ t.port = s.port := by
  rcases runTransaction_cases w s with ⟨i, hi, hr⟩ | ⟨e, -, hr⟩ <;> rw [hr] at h
  · have hclear : i ≠ .clear := by
      rintro rfl
      exact hw (clearWord_of_decode hi)
    obtain ⟨-, hport, -⟩ := eachInstructionChangesOnlyItsOwn i s t h
    exact ⟨exec_stays_fatal hclear hs h, hport⟩
  · cases h
    exact ⟨⟨hs, rfl, rfl⟩, rfl⟩

/-- A step whose oldest arrival is no reset and no CLEAR stays in the fatal state and uses up that arrival. -/
theorem step_stays_fatal {s : State} (hs : s.fatal = true) (hport : ∀ a ∈ s.port.head?, a.clears = false) :
    ∃ t, step s = .next t ∧ StaysFatal s t ∧ t.port = s.port.tail := by
  rcases step_cases s with ⟨hp, hst⟩ | ⟨rest, hp, -⟩ | ⟨w, rest, hp, hst⟩ | ⟨w, rest, hp, -⟩ <;> rw [hp] at hport ⊢
  · exact ⟨silent s, hst, ⟨hs, rfl, rfl⟩, hp⟩
  · exact nomatch hport _ rfl
  · have hw : w.word ≠ 0x07 := by simpa [Arrival.clears] using hport
    obtain ⟨t, -, ht, -⟩ := runTransaction_responds w { s with port := rest }
    exact ⟨t, hst.trans ht, runTransaction_stays_fatal (s := { s with port := rest }) hw hs ht⟩
  · exact nomatch hport _ rfl

/-- Settles O40: induction on the number of steps, each of which uses up one arrival. -/
theorem noPacketWhileFatal : Obligations.NoPacketWhileFatal := by
  intro n
  induction n with
  | zero => exact fun s hs hr _ => ⟨s, rfl, hs, rfl, hr⟩
  | succ n ih =>
    intro s hs hr hport
    obtain ⟨t, hstep, ⟨hf, hc, hnone⟩, htail⟩ := step_stays_fatal hs fun a ha =>
      hport a (List.mem_of_mem_head? (by rwa [List.head?_take, if_neg n.succ_ne_zero]))
    have hrest : t.port.take n = (s.port.take (n + 1)).tail := by
      rw [htail, List.tail_take_eq_take_tail, Nat.add_sub_cancel]
    rw [run_succ_of_step n hstep, ← hc]
    exact ih t hf hnone fun a ha => hport a (List.mem_of_mem_tail (hrest ▸ ha))

/-! ## Leaving the fatal state (R115) -/

/-- A transaction that leaves the fatal state is CLEAR's, and it empties the queue. -/
theorem runTransaction_of_fatal {w : Transaction} {s t : State} (hs : s.fatal = true)
    (h : runTransaction w s = .next t) :
    (t.fatal = true → t.cause = s.cause) ∧ (t.fatal = false → t.buf = [] ∧ t.cause = 0x00 ∧ w.word = 0x07) := by
  by_cases hw : w.word = 0x07
  · rw [runTransaction_of_decode w s .clear (decode_of_clearWord hw), exec_clear] at h
    cases h
    exact ⟨fun hf => (nomatch hf), fun _ => ⟨rfl, rfl, hw⟩⟩
  · obtain ⟨⟨hf, hc, -⟩, -⟩ := runTransaction_stays_fatal hw hs h
    exact ⟨fun _ => hc, fun hnot => absurd hf (Bool.eq_false_iff.1 hnot)⟩

/-- Settles O39: a step is idle, a reset or a transaction, and a transaction leaves the fatal state only for CLEAR. -/
theorem onlyResetOrClearLeavesFatal : Obligations.OnlyResetOrClearLeavesFatal := by
  intro s t h hs
  rcases step_cases s with ⟨-, hst⟩ | ⟨rest, hp, hst⟩ | ⟨w, rest, hp, hst⟩ | ⟨w, rest, hp, hst⟩ <;> rw [hst] at h
  · cases h
    exact ⟨fun _ => rfl, fun hnot => absurd hs (Bool.eq_false_iff.1 hnot)⟩
  · cases h
    exact ⟨fun hf => (nomatch hf), fun _ => ⟨rfl, rfl, .inl ⟨rest, hp⟩⟩⟩
  · obtain ⟨hstays, hleaves⟩ := runTransaction_of_fatal (s := { s with port := rest }) hs h
    refine ⟨hstays, fun hnot => ?_⟩
    obtain ⟨hbuf, hc, hw⟩ := hleaves hnot
    exact ⟨hbuf, hc, .inr (.inr ⟨w, rest, hw, hp⟩)⟩
  · obtain ⟨hstays, hleaves⟩ := runTransaction_of_fatal (s := { s with port := .reset :: rest }) hs h
    refine ⟨hstays, fun hnot => ?_⟩
    obtain ⟨hbuf, hc, -⟩ := hleaves hnot
    exact ⟨hbuf, hc, .inr (.inl ⟨w, rest, hp⟩)⟩

/-! ## Commands in the fatal state (R114) -/

theorem reserved_of_not_command {w : Byte} (hw : w.toNat ∉ [1, 2, 3, 4, 7]) :
    w.toNat % 8 = 0 ∨ w.toNat % 8 = 5 ∨ w.toNat % 8 = 6 ∨ w.toNat / 8 ≠ 0 := by
  simp only [List.mem_cons, List.not_mem_nil, or_false] at hw
  omega

/-- Settles O38: TAKE reports the sticky status, and the equations of the other commands do not look at `fatal`. -/
theorem fatalStateBehaviour : Obligations.FatalStateBehaviour := by
  intro s hs hcause
  refine ⟨?take, ?push, ?encode, ?query, ?clear, ?reserved⟩
  case take =>
    exact ⟨answer (stickyResponse s.cause) s, by rw [exec_take, takeWith, if_pos hs], rfl, rfl, hs, rfl⟩
  case push =>
    intro chunk
    refine ⟨_, _, exec_push chunk s, rfl, rfl, fun hinf => ?_, fun d hd _ => ?_⟩
    · rw [hinf, acceptCount_inf]
    · rw [hd, acceptCount_finite]
  case encode =>
    intro type rid payload
    obtain ⟨t, u, ht, hu, hrsp, htx, hok, -⟩ := encodeIgnoresTheState type rid payload s (State.resetAt s.depth)
    refine ⟨t, u, ht, hu, hrsp, htx, fun hfits => ⟨hok hfits, ?_⟩⟩
    rw [exec_encode, if_neg (Nat.not_lt.2 hfits)] at ht
    cases ht
    rfl
  case query => exact ⟨_, exec_query s, by rw [answer_rsp, statusView, hs]⟩
  case clear => exact ⟨_, exec_clear s, rfl, rfl⟩
  case reserved =>
    intro w rest hw hport
    exact ⟨_, reservedWordsAnswerIllegal w rest s hport (reserved_of_not_command hw), rfl, hs⟩

end Sys2Proof.Machine
end

section
/-! PROOFS. Reset (spec/70_reset_and_hazards.md): it takes effect between commands, and a command that arrives with it
completes first (R126). -/

namespace Sys2Proof.Machine

/-- A transaction leaves the capacity and the inputs not yet accepted as they are. -/
theorem runTransaction_depth_port {w : Transaction} {s t : State} (h : runTransaction w s = .next t) :
    t.depth = s.depth ∧ t.port = s.port := by
  rcases runTransaction_cases w s with ⟨i, -, hr⟩ | ⟨e, -, hr⟩ <;> rw [hr] at h
  · obtain ⟨hdepth, hport, -⟩ := eachInstructionChangesOnlyItsOwn i s t h
    exact ⟨hdepth, hport⟩
  · cases h
    exact ⟨answerReserved_depth s, answerReserved_port s⟩

/-- What a reset step leaves depends on the capacity and on the inputs behind it only (R125, R126). -/
theorem step_reset_of_depth_port {u s : State} {rest : List Arrival} (hdepth : u.depth = s.depth)
    (hport : u.port = .reset :: rest) : step u = .next (resetByPin { s with port := rest }) := by
  rw [step_of_reset hport]
  simp only [resetByPin, silent, clearState, hdepth]

/-- A command that arrives with a reset answers in its own step, and the reset is the next one, whatever the command
left (R126, log 13). -/
theorem step_of_commandWithReset_then_reset {w : Transaction} {rest : List Arrival} {s : State}
    (hport : s.port = .commandWithReset w :: rest) :
    ∃ u r, step s = .next u ∧ u.rsp = some r ∧ step u = .next (resetByPin { s with port := rest }) := by
  obtain ⟨u, r, hrun, hr⟩ := runTransaction_responds w { s with port := .reset :: rest }
  obtain ⟨hdepth, hrest⟩ := runTransaction_depth_port hrun
  exact ⟨u, r, (step_of_commandWithReset hport).trans hrun, hr, step_reset_of_depth_port hdepth hrest⟩

/-- Settles O48: the transaction runs with the reset left at the inputs, and the reset overwrites all but what a
transaction keeps. -/
theorem resetTakesEffectBetweenCommands : Obligations.ResetTakesEffectBetweenCommands := by
  refine ⟨?two_arrivals, ?command_then_reset, ?stays_fatal, fun _ _ hport => step_of_reset hport⟩
  case two_arrivals =>
    intro w rest s
    rw [step_of_commandWithReset rfl, step_of_command rfl]
  case command_then_reset =>
    intro w rest s hport
    obtain ⟨u, r, hstep, hr, hreset⟩ := step_of_commandWithReset_then_reset hport
    exact ⟨u, _, hstep, by rw [hr, Option.isSome_some], hreset, rfl⟩
  case stays_fatal =>
    intro w rest s u hport hw hs hstep
    rw [step_of_commandWithReset hport] at hstep
    obtain ⟨⟨hfatal, -⟩, -⟩ := runTransaction_stays_fatal (s := { s with port := .reset :: rest }) hw hs hstep
    exact hfatal

end Sys2Proof.Machine
end
